-- ==== Sys2Proof/Word.lean ====
section
/-! DEFINITION. The word types of the machine (10_state.md R30, R34, R35; 30_encoding.md R101). -/

namespace Sys2Proof

/-- A general register, a timer or a memory cell: 8 bits, unsigned (R30, R43, R44, R70). -/
abbrev Byte := BitVec 8

/-- I, PC, a stack slot, a fault field or an opcode: 16 bits (R34, R35, R39, R48, R100). -/
abbrev Word := BitVec 16

/-- The 4-bit fields of an opcode: a register index x or y, or a row count n (R101). -/
abbrev Nibble := BitVec 4

/-- The 12-bit address field nnn of an opcode (R101). -/
abbrev Addr12 := BitVec 12

/-- The 64 x 32 one-bit cells: bit x of entry y is cell `y * 64 + x`, of column x and row y (R46). -/
abbrev Framebuffer := Vector (BitVec 64) 32

end Sys2Proof
end

