-- ==== Sys2Proof/Config.lean ====
section
/-! DEFINITION. What is fixed for a machine and does not change as it runs: the sizes of R10, the
alternatives of the named parameters of R11, and the free values. The value each parameter takes is in
Machine/Params.lean. -/

namespace Sys2Proof.Config

/-- Memory has 4096 cells, addresses 0x000 to 0xFFF (R70). -/
def memSize : Nat := 0x1000

/-- The font table stands at 0x050 (R79). -/
def fontBase : Nat := 0x050

/-- A glyph of the font table has 5 bytes (R79). -/
def glyphSize : Nat := 5

/-- The load address of a program and the initial PC (R10, R78). -/
def programBase : Nat := 0x200

/-- The largest program image, in bytes: 0x200 to 0xFFF (R78, R82). -/
def programMax : Nat := 3584

/-- The parameter `shrMode` of R11: which way SHR shifts (R178). -/
inductive ShrMode where
  /-- The left shift KC8 observed: the default (D8). -/
  | observed
  /-- The right shift. -/
  | rightShift
  deriving DecidableEq, Repr

/-- The parameter `vfAliasReading` of R11: when a flag-writing ALU instruction reads its operands (R184). -/
inductive VfAliasReading where
  /-- Operands are bound before any write: the default (D7). -/
  | preOp
  /-- The result statement reads the registers as the flag statement left them (U4). -/
  | sequential
  deriving DecidableEq, Repr

/-- The parameter `drwCollision` of R11: which lit cells count as a collision (R223). -/
inductive DrwCollision where
  /-- Every visited cell that was 1: the default (D4). -/
  | anyLitPixel
  /-- Only a visited cell that was 1 and meets a sprite bit of 1. -/
  | setBitsOnly
  deriving DecidableEq, Repr

/-- The random source (R18, R22, U8): the k-th draw of a run. A FREE VALUE: it has no body, so no proof
can see what it is, and a claim holds for every draw. Log entry 6. -/
opaque draw : Nat → Byte

end Sys2Proof.Config
end

