-- ==== Sys2Proof/Machine/Params.lean ====
section
/-! DEFINITION. The values this model gives the named parameters of 00_scope.md R11 (each the default the spec
decides), and what memory holds after reset. -/

namespace Sys2Proof.Machine

/-- `shrMode`, default Observed (R11, R178, D8). Log entry 4. -/
def shrMode : Config.ShrMode := .observed

/-- `vfAliasReading`, default PreOp (R11, R184, D7). Log entry 3. -/
def vfAliasReading : Config.VfAliasReading := .preOp

/-- `drwCollision`, default AnyLitPixel (R11, R223, D4). Log entry 5. -/
def drwCollision : Config.DrwCollision := .anyLitPixel

/-- The glyphs 0 to 7 of the default font (R80). -/
def fontGlyphs0to7 : List Byte :=
  [0xF0, 0x90, 0x90, 0x90, 0xF0] ++
  [0x20, 0x60, 0x20, 0x20, 0x70] ++
  [0xF0, 0x10, 0xF0, 0x80, 0xF0] ++
  [0xF0, 0x10, 0xF0, 0x10, 0xF0] ++
  [0x90, 0x90, 0xF0, 0x10, 0x10] ++
  [0xF0, 0x80, 0xF0, 0x10, 0xF0] ++
  [0xF0, 0x80, 0xF0, 0x90, 0xF0] ++
  [0xF0, 0x10, 0x20, 0x40, 0x40]

/-- The glyphs 8 to F of the default font (R80). -/
def fontGlyphs8toF : List Byte :=
  [0xF0, 0x90, 0xF0, 0x90, 0xF0] ++
  [0xF0, 0x90, 0xF0, 0x10, 0xF0] ++
  [0xF0, 0x90, 0xF0, 0x90, 0x90] ++
  [0xE0, 0x90, 0xE0, 0x90, 0xE0] ++
  [0xF0, 0x80, 0x80, 0x80, 0xF0] ++
  [0xE0, 0x90, 0x90, 0x90, 0xE0] ++
  [0xF0, 0x80, 0xF0, 0x80, 0xF0] ++
  [0xF0, 0x80, 0xF0, 0x80, 0x80]

/-- The parameter `FONT`: 80 bytes, default the customary font (R11, R80, D25, G1: not in the source).
Log entry 2. -/
def fontBytes : List Byte := fontGlyphs0to7 ++ fontGlyphs8toF

/-- What an address memory does not list reads as, its contents after reset: the font table at 0x050 to 0x09F,
0x00 everywhere else (R51, R78, R79). -/
def unlistedByte (a : Nat) : Byte :=
  if Config.fontBase ≤ a ∧ a < Config.fontBase + fontBytes.length then
    fontBytes.getD (a - Config.fontBase) 0
  else 0

end Sys2Proof.Machine
end

