-- ==== Sys2Proof/Syntax.lean ====
section
/-! DEFINITION. The instructions: one constructor per row of spec/opcode_table.json, in the table's
(priority) order of R106, and the row UNKNOWN (R112). -/

namespace Sys2Proof

/-- An instruction with the fields of its opcode (R101, R102). A field the instruction ignores (nnn of SYS,
bits 3-0 of SE Vx, Vy and SNE Vx, Vy, y of SHR and SHL: R103) is kept, so that every opcode is the encoding
of exactly one instruction (log entry 11). -/
inductive Instr where
  /-- `CLS` (00E0, R220). -/
  | cls
  /-- `RET` (00EE, R141). -/
  | ret
  /-- `SYS nnn` (0nnn but 00E0 and 00EE, R140). -/
  | sys (nnn : Addr12)
  /-- `JP nnn` (1nnn, R142). -/
  | jp (nnn : Addr12)
  /-- `CALL nnn` (2nnn, R143). -/
  | call (nnn : Addr12)
  /-- `SE Vx, nn` (3xnn, R144). -/
  | seImm (x : Nibble) (nn : Byte)
  /-- `SNE Vx, nn` (4xnn, R145). -/
  | sneImm (x : Nibble) (nn : Byte)
  /-- `SE Vx, Vy` (5xyN, R146); `n` is bits 3-0, ignored. -/
  | seReg (x y n : Nibble)
  /-- `LD Vx, nn` (6xnn, R170). -/
  | ldImm (x : Nibble) (nn : Byte)
  /-- `ADD Vx, nn` (7xnn, R171). -/
  | addImm (x : Nibble) (nn : Byte)
  /-- `LD Vx, Vy` (8xy0, R172). -/
  | ldReg (x y : Nibble)
  /-- `OR Vx, Vy` (8xy1, R173). -/
  | orReg (x y : Nibble)
  /-- `AND Vx, Vy` (8xy2, R174). -/
  | andReg (x y : Nibble)
  /-- `XOR Vx, Vy` (8xy3, R175). -/
  | xorReg (x y : Nibble)
  /-- `ADD Vx, Vy` (8xy4, R176). -/
  | addReg (x y : Nibble)
  /-- `SUB Vx, Vy` (8xy5, R177). -/
  | subReg (x y : Nibble)
  /-- `SHR Vx` (8xy6, R178); `y` is ignored. -/
  | shr (x y : Nibble)
  /-- `SUBN Vx, Vy` (8xy7, R179). -/
  | subnReg (x y : Nibble)
  /-- `SHL Vx` (8xyE, R180); `y` is ignored. -/
  | shl (x y : Nibble)
  /-- `SNE Vx, Vy` (9xyN, R147); `n` is bits 3-0, ignored. -/
  | sneReg (x y n : Nibble)
  /-- `LD I, nnn` (Annn, R200). -/
  | ldI (nnn : Addr12)
  /-- `JP V0, nnn` (Bnnn, R148). -/
  | jpV0 (nnn : Addr12)
  /-- `RND Vx, nn` (Cxnn, R181). -/
  | rnd (x : Nibble) (nn : Byte)
  /-- `DRW Vx, Vy, n` (Dxyn, R222). -/
  | drw (x y n : Nibble)
  /-- `SKP Vx` (Ex9E, R240). -/
  | skp (x : Nibble)
  /-- `SKNP Vx` (ExA1, R241). -/
  | sknp (x : Nibble)
  /-- `LD Vx, DT` (Fx07, R242). -/
  | ldVxDt (x : Nibble)
  /-- `LD Vx, K` (Fx0A, R243). -/
  | ldVxK (x : Nibble)
  /-- `LD DT, Vx` (Fx15, R244). -/
  | ldDtVx (x : Nibble)
  /-- `LD ST, Vx` (Fx18, R245). -/
  | ldStVx (x : Nibble)
  /-- `ADD I, Vx` (Fx1E, R201). -/
  | addI (x : Nibble)
  /-- `LD F, Vx` (Fx29, R203). -/
  | ldF (x : Nibble)
  /-- `LD B, Vx` (Fx33, R204). -/
  | ldB (x : Nibble)
  /-- `LD [I], Vx` (Fx55, R205). -/
  | storeRegs (x : Nibble)
  /-- `LD Vx, [I]` (Fx65, R206). -/
  | loadRegs (x : Nibble)
  /-- `UNKNOWN`: an opcode no other row matches (R112), carried whole for the step's result (R121). -/
  | unknown (op : Word)
  deriving DecidableEq, Repr

end Sys2Proof
end

