-- ==== Sys2Proof/WellFormed.lean ====
section
/-! DEFINITION. Which terms of `Instr` are the reading of some opcode (R106, R108, R109). Every field has
exactly the width of its opcode field, so two checks are left: SYS does not name the opcodes of CLS and RET,
and UNKNOWN names an unassigned opcode. -/

namespace Sys2Proof

/-- The unassigned opcodes of R109's map: 8xyN with N in 8, 9, A, B, C, D, F; ExNN but 9E and A1; FxNN but
the nine assigned ones. -/
def isUnknownWord (op : Word) : Bool :=
  let p := op.extractLsb' 12 4
  let n := op.extractLsb' 0 4
  let nn := op.extractLsb' 0 8
  (p == 0x8 && [0x8, 0x9, 0xA, 0xB, 0xC, 0xD, 0xF].contains n)
    || (p == 0xE && !([0x9E, 0xA1].contains nn))
    || (p == 0xF && !([0x07, 0x0A, 0x15, 0x18, 0x1E, 0x29, 0x33, 0x55, 0x65].contains nn))

/-- The well-formed instructions. -/
def Instr.wf : Instr → Bool
  | .sys nnn => nnn != 0x0E0 && nnn != 0x0EE
  | .unknown op => isUnknownWord op
  | .cls | .ret => true
  | .jp _ | .call _ | .ldI _ | .jpV0 _ => true
  | .seImm _ _ | .sneImm _ _ | .ldImm _ _ | .addImm _ _ | .rnd _ _ => true
  | .seReg _ _ _ | .sneReg _ _ _ | .drw _ _ _ => true
  | .ldReg _ _ | .orReg _ _ | .andReg _ _ | .xorReg _ _ | .addReg _ _ | .subReg _ _ => true
  | .shr _ _ | .subnReg _ _ | .shl _ _ => true
  | .skp _ | .sknp _ | .ldVxDt _ | .ldVxK _ | .ldDtVx _ | .ldStVx _ => true
  | .addI _ | .ldF _ | .ldB _ | .storeRegs _ | .loadRegs _ => true

end Sys2Proof
end

