-- ==== Sys2Proof/Decode.lean ====
section
/-! DEFINITION. The decoder of 30_encoding.md: the ordered table of R106 searched as R105 says, the assembly
of the operands (R101, R103), and after it the encoder, written from the same layouts (R102). -/

namespace Sys2Proof

/-- Why bytes are no instruction. -/
inductive DecodeError where
  /-- Fewer than the two bytes an opcode occupies (R100). -/
  | truncated
  deriving DecidableEq, Repr

/-- The 35 instruction forms, one per row of R106. -/
inductive Form where
  | cls | ret | sys | jp | call | seImm | sneImm | seReg | ldImm | addImm
  | ldReg | orReg | andReg | xorReg | addReg | subReg | shr | subnReg | shl
  | sneReg | ldI | jpV0 | rnd | drw | skp | sknp
  | ldVxDt | ldVxK | ldDtVx | ldStVx | addI | ldF | ldB | storeRegs | loadRegs
  deriving DecidableEq, Repr

/-- One row of the decode table: an opcode matches when its bits under the mask are the pattern (R105). -/
structure OpcodeRow where
  mask : Word
  pattern : Word
  form : Form
  deriving DecidableEq, Repr

/-- The first word of an opcode's two bytes is the high byte (R73, R100). -/
def wordOfBytes (hi lo : Byte) : Word := hi ++ lo

/-- The high byte of an opcode. -/
def highByte (op : Word) : Byte := op.extractLsb' 8 8

/-- The low byte of an opcode. -/
def lowByte (op : Word) : Byte := op.extractLsb' 0 8

/-- The field x, bits 11-8 (R101). -/
def fieldX (op : Word) : Nibble := op.extractLsb' 8 4

/-- The field y, bits 7-4 (R101). -/
def fieldY (op : Word) : Nibble := op.extractLsb' 4 4

/-- The field n, bits 3-0 (R101). -/
def fieldN (op : Word) : Nibble := op.extractLsb' 0 4

/-- The field nn, bits 7-0 (R101). -/
def fieldNN (op : Word) : Byte := op.extractLsb' 0 8

/-- The field nnn, bits 11-0 (R101). -/
def fieldNNN (op : Word) : Addr12 := op.extractLsb' 0 12

/-- Rows 1 to 10 of R106: families 0 to 7 (masks of R107). -/
def rowsFamilies0to7 : List OpcodeRow := [
  ⟨0xFFFF, 0x00E0, .cls⟩,
  ⟨0xFFFF, 0x00EE, .ret⟩,
  ⟨0xF000, 0x0000, .sys⟩,
  ⟨0xF000, 0x1000, .jp⟩,
  ⟨0xF000, 0x2000, .call⟩,
  ⟨0xF000, 0x3000, .seImm⟩,
  ⟨0xF000, 0x4000, .sneImm⟩,
  ⟨0xF000, 0x5000, .seReg⟩,
  ⟨0xF000, 0x6000, .ldImm⟩,
  ⟨0xF000, 0x7000, .addImm⟩]

/-- Rows 11 to 19 of R106: family 8. -/
def rowsFamily8 : List OpcodeRow := [
  ⟨0xF00F, 0x8000, .ldReg⟩,
  ⟨0xF00F, 0x8001, .orReg⟩,
  ⟨0xF00F, 0x8002, .andReg⟩,
  ⟨0xF00F, 0x8003, .xorReg⟩,
  ⟨0xF00F, 0x8004, .addReg⟩,
  ⟨0xF00F, 0x8005, .subReg⟩,
  ⟨0xF00F, 0x8006, .shr⟩,
  ⟨0xF00F, 0x8007, .subnReg⟩,
  ⟨0xF00F, 0x800E, .shl⟩]

/-- Rows 20 to 26 of R106: families 9 to E. -/
def rowsFamilies9toE : List OpcodeRow := [
  ⟨0xF000, 0x9000, .sneReg⟩,
  ⟨0xF000, 0xA000, .ldI⟩,
  ⟨0xF000, 0xB000, .jpV0⟩,
  ⟨0xF000, 0xC000, .rnd⟩,
  ⟨0xF000, 0xD000, .drw⟩,
  ⟨0xF0FF, 0xE09E, .skp⟩,
  ⟨0xF0FF, 0xE0A1, .sknp⟩]

/-- Rows 27 to 35 of R106: family F. -/
def rowsFamilyF : List OpcodeRow := [
  ⟨0xF0FF, 0xF007, .ldVxDt⟩,
  ⟨0xF0FF, 0xF00A, .ldVxK⟩,
  ⟨0xF0FF, 0xF015, .ldDtVx⟩,
  ⟨0xF0FF, 0xF018, .ldStVx⟩,
  ⟨0xF0FF, 0xF01E, .addI⟩,
  ⟨0xF0FF, 0xF029, .ldF⟩,
  ⟨0xF0FF, 0xF033, .ldB⟩,
  ⟨0xF0FF, 0xF055, .storeRegs⟩,
  ⟨0xF0FF, 0xF065, .loadRegs⟩]

/-- The decode table of R106, in priority order. -/
def opcodeTable : List OpcodeRow :=
  rowsFamilies0to7 ++ rowsFamily8 ++ rowsFamilies9toE ++ rowsFamilyF

/-- Whether an opcode matches a row (R105). -/
def OpcodeRow.accepts (r : OpcodeRow) (op : Word) : Bool := (op &&& r.mask) == r.pattern

/-- The instruction of a form, its operands read out of the opcode (R102, R103). -/
def Form.build : Form → Word → Instr
  | .cls, _ => .cls
  | .ret, _ => .ret
  | .sys, op => .sys (fieldNNN op)
  | .jp, op => .jp (fieldNNN op)
  | .call, op => .call (fieldNNN op)
  | .seImm, op => .seImm (fieldX op) (fieldNN op)
  | .sneImm, op => .sneImm (fieldX op) (fieldNN op)
  | .seReg, op => .seReg (fieldX op) (fieldY op) (fieldN op)
  | .ldImm, op => .ldImm (fieldX op) (fieldNN op)
  | .addImm, op => .addImm (fieldX op) (fieldNN op)
  | .ldReg, op => .ldReg (fieldX op) (fieldY op)
  | .orReg, op => .orReg (fieldX op) (fieldY op)
  | .andReg, op => .andReg (fieldX op) (fieldY op)
  | .xorReg, op => .xorReg (fieldX op) (fieldY op)
  | .addReg, op => .addReg (fieldX op) (fieldY op)
  | .subReg, op => .subReg (fieldX op) (fieldY op)
  | .shr, op => .shr (fieldX op) (fieldY op)
  | .subnReg, op => .subnReg (fieldX op) (fieldY op)
  | .shl, op => .shl (fieldX op) (fieldY op)
  | .sneReg, op => .sneReg (fieldX op) (fieldY op) (fieldN op)
  | .ldI, op => .ldI (fieldNNN op)
  | .jpV0, op => .jpV0 (fieldNNN op)
  | .rnd, op => .rnd (fieldX op) (fieldNN op)
  | .drw, op => .drw (fieldX op) (fieldY op) (fieldN op)
  | .skp, op => .skp (fieldX op)
  | .sknp, op => .sknp (fieldX op)
  | .ldVxDt, op => .ldVxDt (fieldX op)
  | .ldVxK, op => .ldVxK (fieldX op)
  | .ldDtVx, op => .ldDtVx (fieldX op)
  | .ldStVx, op => .ldStVx (fieldX op)
  | .addI, op => .addI (fieldX op)
  | .ldF, op => .ldF (fieldX op)
  | .ldB, op => .ldB (fieldX op)
  | .storeRegs, op => .storeRegs (fieldX op)
  | .loadRegs, op => .loadRegs (fieldX op)

/-- The first row of the table that an opcode matches (R105). -/
def selectRow (op : Word) : Option OpcodeRow := opcodeTable.find? (·.accepts op)

/-- Decode of one opcode (R105): the first matching row's instruction, or UNKNOWN. -/
def decodeWord (op : Word) : Instr :=
  match selectRow op with
  | some r => r.form.build op
  | none => .unknown op

/-- The decoder on bytes: exactly two are consumed, the high one first (R100), and the rest is handed on.
Every pair of bytes is an instruction, so the one refusal is `truncated`. -/
def decode : List Byte → Except DecodeError (Instr × List Byte)
  | hi :: lo :: rest => .ok (decodeWord (wordOfBytes hi lo), rest)
  | _ => .error .truncated

/-- Format NNN: the family nibble and a 12-bit address (R102). -/
def packNNN (p : Nibble) (nnn : Addr12) : Word := p ++ nnn

/-- Format XNN: the family nibble, a register and a byte (R102). -/
def packXNN (p x : Nibble) (nn : Byte) : Word := (p ++ x : BitVec 8) ++ nn

/-- Formats XY and XYN: four nibbles (R102). -/
def packXYN (p x y n : Nibble) : Word := (p ++ x : BitVec 8) ++ (y ++ n : BitVec 8)

/-- The opcode of an instruction (R102, R106). -/
def encode : Instr → Word
  | .cls => 0x00E0
  | .ret => 0x00EE
  | .sys nnn => packNNN 0x0 nnn
  | .jp nnn => packNNN 0x1 nnn
  | .call nnn => packNNN 0x2 nnn
  | .seImm x nn => packXNN 0x3 x nn
  | .sneImm x nn => packXNN 0x4 x nn
  | .seReg x y n => packXYN 0x5 x y n
  | .ldImm x nn => packXNN 0x6 x nn
  | .addImm x nn => packXNN 0x7 x nn
  | .ldReg x y => packXYN 0x8 x y 0x0
  | .orReg x y => packXYN 0x8 x y 0x1
  | .andReg x y => packXYN 0x8 x y 0x2
  | .xorReg x y => packXYN 0x8 x y 0x3
  | .addReg x y => packXYN 0x8 x y 0x4
  | .subReg x y => packXYN 0x8 x y 0x5
  | .shr x y => packXYN 0x8 x y 0x6
  | .subnReg x y => packXYN 0x8 x y 0x7
  | .shl x y => packXYN 0x8 x y 0xE
  | .sneReg x y n => packXYN 0x9 x y n
  | .ldI nnn => packNNN 0xA nnn
  | .jpV0 nnn => packNNN 0xB nnn
  | .rnd x nn => packXNN 0xC x nn
  | .drw x y n => packXYN 0xD x y n
  | .skp x => packXNN 0xE x 0x9E
  | .sknp x => packXNN 0xE x 0xA1
  | .ldVxDt x => packXNN 0xF x 0x07
  | .ldVxK x => packXNN 0xF x 0x0A
  | .ldDtVx x => packXNN 0xF x 0x15
  | .ldStVx x => packXNN 0xF x 0x18
  | .addI x => packXNN 0xF x 0x1E
  | .ldF x => packXNN 0xF x 0x29
  | .ldB x => packXNN 0xF x 0x33
  | .storeRegs x => packXNN 0xF x 0x55
  | .loadRegs x => packXNN 0xF x 0x65
  | .unknown op => op

/-- The two bytes of an opcode as memory holds them, the high byte at the lower address (R73). -/
def bytesOfWord (op : Word) : List Byte := [highByte op, lowByte op]

/-- The two bytes of an instruction as memory holds them. -/
def encodeBytes (i : Instr) : List Byte := bytesOfWord (encode i)

/-- The opcode named by a number whose bits spec/opcode_table.json numbers: bit 0 is the least significant bit
of the one 16-bit word, and bits from `nbits` up are 0. -/
def wordOfTableBits (nbits w : Nat) : Word := BitVec.ofNat 16 (w % 2 ^ nbits)

/-- What the decoder reads from the bytes of that opcode. -/
def decodeTableWord (nbits w : Nat) : Option Instr :=
  match decode (bytesOfWord (wordOfTableBits nbits w)) with
  | .ok (i, _) => some i
  | .error _ => none

end Sys2Proof
end

