-- ==== Sys2Proof/Machine/State.lean ====
section
/-! DEFINITION. The state of the machine: exactly what 10_state.md R52 lists, and the counter of the free
draws (log entry 6); the state after reset (R51); why a step can stop. -/

namespace Sys2Proof.Machine

/-- The faults of R270, codes 1 to 5. A fault of the spec is a NEXT state with these recorded (R272), not an
outcome `Fault` of the step: log entry 9. -/
inductive FaultKind where
  /-- Code 1: the fetch would read at or above 0x1000. -/
  | fetchBounds
  /-- Code 2: a data access at or above 0x1000. -/
  | dataBounds
  /-- Code 3: CALL with a full stack. -/
  | stackOverflow
  /-- Code 4: RET with an empty stack. -/
  | stackUnderflow
  /-- Code 5: SKP or SKNP with Vx above 15. -/
  | keyIndex
  deriving DecidableEq, Repr

/-- What `raise` carries (R16): the kind of fault, and the value of FAULT_ADDR (R270). -/
structure Raise where
  kind : FaultKind
  addr : Word
  deriving DecidableEq, Repr

/-- Memory: the listed cells, addresses strictly rising, none of them equal to what an unlisted address reads
as (`unlistedByte`, Machine/Params.lean). The form is `Memory.wf`, Machine/Ops.lean. -/
abbrev Memory := List Host.Cell

/-- The state (R52). -/
structure State where
  /-- V0 to VF (R30). -/
  v : Vector Byte 16
  /-- The index register I (R34). -/
  i : Word
  /-- The program counter PC (R35). -/
  pc : Word
  /-- The stack pointer SP: how many slots are occupied, 0 to 16 (R39, R49). -/
  sp : Fin 17
  /-- The stack slots S[0] to S[15] (R39). -/
  stack : Vector Word 16
  /-- The delay timer DT (R43). -/
  dt : Byte
  /-- The sound timer ST (R44). -/
  st : Byte
  /-- The key latch K[0] to K[15], true when pressed (R45). -/
  keys : Vector Bool 16
  /-- The framebuffer FB, held as 32 rows of 64 cells (R46; log entry 10). -/
  fb : Framebuffer
  /-- The redraw flag REDRAW (R47). -/
  redraw : Bool
  /-- FAULT (R48): none is code 0, and the machine is halted when it is not none (R272). -/
  fault : Option FaultKind
  /-- FAULT_PC (R48). -/
  faultPc : Word
  /-- FAULT_OP (R48). -/
  faultOp : Word
  /-- FAULT_ADDR (R48). -/
  faultAddr : Word
  /-- The memory M (R70). -/
  mem : Memory
  /-- How many draws RND has taken. The model's own field: the spec's random source is an input (R22, R50),
  and the k-th draw is the free value `Config.draw k`. Log entry 6. -/
  draws : Nat
  deriving DecidableEq, Repr

/-- Why the step itself can stop with no next state. -/
inductive Fault where
  /-- Raised by the step (Machine/Cycle.lean) if the decoder refused the bytes the fetch hands it. It never
  does: the fetch hands it two bytes and every two bytes decode (R105). Safe: the step would stop. -/
  | undecodable (e : DecodeError)
  deriving DecidableEq, Repr

/-- Why an instruction is refused. -/
inductive Refusal where
  /-- Raised by an arm of `exec` whose instruction has no meaning yet; no arm does. Safe: the step would stop. -/
  | notModelled (mnemonic : String)
  deriving DecidableEq, Repr

/-- The state right after reset, which is construction (R51, R310). Memory lists nothing: an unlisted address
reads as its reset contents (the font table, and 0 elsewhere). The zeros R51 marks D24 are the spec's own
choice (log entry 1); `draws` is the model's (log entry 6). -/
def State.reset : State where
  v := Vector.replicate 16 0
  i := 0
  pc := 0x0200
  sp := 0
  stack := Vector.replicate 16 0
  dt := 0
  st := 0
  keys := Vector.replicate 16 false
  fb := Vector.replicate 32 0
  redraw := false
  fault := none
  faultPc := 0
  faultOp := 0
  faultAddr := 0
  mem := []
  draws := 0

end Sys2Proof.Machine
end

