-- ==== Sys2Proof/Machine/Ops.lean ====
section
/-! DEFINITION. The named operations over memory, registers, stack, timers and key latch, and fault entry.
A machine operation that can raise answers `Except Raise`; `settle` turns that into the instruction's outcome,
so that an instruction applies all its writes or none (R16). -/

namespace Sys2Proof.Machine

/-! ## Memory (20_memory.md) -/

/-- The byte an address of memory holds: its listed value, or its reset contents. No bounds check. -/
def Memory.lookup : Memory → Nat → Byte
  | [], a => unlistedByte a
  | (b, v) :: rest, a => if a = b then v else Memory.lookup rest a

/-- Takes an address off the list. -/
def Memory.erase (m : Memory) (a : Nat) : Memory := m.filter fun c => c.1 != a

/-- Lists a byte at an address, in the place its address gives it. -/
def Memory.insert : Memory → Nat → Byte → Memory
  | [], a, b => [(a, b)]
  | (c, v) :: rest, a, b =>
    if a < c then (a, b) :: (c, v) :: rest
    else if a = c then (a, b) :: rest
    else (c, v) :: Memory.insert rest a b

/-- Sets a byte of memory, keeping the canonical form: the value an unlisted address reads as is not listed.
No bounds check. -/
def Memory.store (m : Memory) (a : Nat) (b : Byte) : Memory :=
  if b = unlistedByte a then m.erase a else m.insert a b

/-- Every address of a list is above `lo`, they rise strictly, lie inside memory, and no cell is equal to
what its address reads as unlisted. -/
def Memory.wfAbove : Option Nat → Memory → Bool
  | _, [] => true
  | lo, (a, b) :: rest =>
    lo.all (· < a) && decide (a < Config.memSize) && b != unlistedByte a && Memory.wfAbove (some a) rest

/-- The canonical form of memory. -/
def Memory.wf (m : Memory) : Bool := m.wfAbove none

/-- The state with another memory. -/
def setMem (s : State) (m : Memory) : State := { s with mem := m }

/-- M[a] as a state has it, with no bounds check: for statements and for the host's debug read. -/
def byteAt (s : State) (a : Nat) : Byte := s.mem.lookup a

/-- `MemRead(a, 1)`: the byte, or `DataBounds(a)` from 0x1000 up (R15, R76). -/
def memRead (s : State) (a : Nat) : Except Raise Byte :=
  if a < Config.memSize then .ok (byteAt s a) else .error ⟨.dataBounds, BitVec.ofNat 16 a⟩

/-- `MemWrite(a, 1, v)`: the byte set, or `DataBounds(a)` from 0x1000 up (R15, R76). -/
def memWrite (s : State) (a : Nat) (b : Byte) : Except Raise State :=
  if a < Config.memSize then .ok (setMem s (s.mem.store a b))
  else .error ⟨.dataBounds, BitVec.ofNat 16 a⟩

/-- The `n` bytes at `a`, `a + 1`, ...: the first one out of range raises (R206, R222). -/
def loadBytes (s : State) : Nat → Nat → Except Raise (List Byte)
  | _, 0 => .ok []
  | a, n + 1 =>
    match memRead s a with
    | .error r => .error r
    | .ok b =>
      match loadBytes s (a + 1) n with
      | .error r => .error r
      | .ok bs => .ok (b :: bs)

/-- Writes bytes at `a`, `a + 1`, ... in that order: the first one out of range raises (R204, R205). -/
def storeBytes : State → Nat → List Byte → Except Raise State
  | s, _, [] => .ok s
  | s, a, b :: bs =>
    match memWrite s a b with
    | .error r => .error r
    | .ok s' => storeBytes s' (a + 1) bs

/-! ## Registers (10_state.md) -/

/-- `V[x]` (R14). -/
def getV (s : State) (x : Nibble) : Byte := s.v[x.toNat]'x.isLt

/-- `V[x] <- b` (R14, R31). -/
def setV (s : State) (x : Nibble) (b : Byte) : State := { s with v := s.v.set x.toNat b x.isLt }

/-- `I <- w` (R34). -/
def setI (s : State) (w : Word) : State := { s with i := w }

/-- `PC <- w` (R37). -/
def setPc (s : State) (w : Word) : State := { s with pc := w }

/-- `PC <- (PC + 2) mod 65536` (R36). -/
def advance (s : State) : State := setPc s (s.pc + 2)

/-- `PC <- (PC + (c ? 4 : 2)) mod 65536`: a skip (R36, R149). -/
def skipWhen (c : Bool) (s : State) : State := setPc s (s.pc + if c then 4 else 2)

/-- `DT <- b` (R43). -/
def setDt (s : State) (b : Byte) : State := { s with dt := b }

/-- `ST <- b` (R44). -/
def setSt (s : State) (b : Byte) : State := { s with st := b }

/-- The framebuffer replaced (R46). -/
def setFb (s : State) (f : Framebuffer) : State := { s with fb := f }

/-- `REDRAW <- b` (R47). -/
def setRedraw (s : State) (b : Bool) : State := { s with redraw := b }

/-- `V[k], V[k+1], ... <- bytes`: the register side of Fx65 (R206). -/
def setRegs : State → Nat → List Byte → State
  | s, _, [] => s
  | s, k, b :: bs => setRegs (setV s (BitVec.ofNat 4 k) b) (k + 1) bs

/-- The values of V0 to Vx, in order: the register side of Fx55 (R205). -/
def regsUpTo (s : State) (x : Nibble) : List Byte :=
  (List.range (x.toNat + 1)).map fun k => getV s (BitVec.ofNat 4 k)

/-- A draw of the random source (R18): the next free value, and the counter moved on (R22). -/
def drawByte (s : State) : Byte × State := (Config.draw s.draws, { s with draws := s.draws + 1 })

/-! ## Call stack (10_state.md R39 to R42) -/

/-- The value of slot `k`, 0 when there is no such slot (for statements; the stack has 16 slots). -/
def slot (s : State) (k : Nat) : Word := s.stack[k]?.getD 0

/-- `Push(w)` (R40). -/
def push (s : State) (w : Word) : Except Raise State :=
  if h : s.sp.val < 16 then
    .ok { s with stack := s.stack.set s.sp.val w h, sp := ⟨s.sp.val + 1, Nat.succ_lt_succ h⟩ }
  else .error ⟨.stackOverflow, 0⟩

/-- `Pop()` (R41): the popped value; the slot keeps its value. -/
def pop (s : State) : Except Raise (Word × State) :=
  if s.sp.val = 0 then .error ⟨.stackUnderflow, 0⟩
  else
    .ok (slot s (s.sp.val - 1),
      { s with sp := ⟨s.sp.val - 1, Nat.lt_of_le_of_lt (Nat.sub_le _ _) s.sp.isLt⟩ })

/-! ## Key latch (10_state.md R45) -/

/-- `K[k]`, false when there is no such slot (for the search of Fx0A and for statements). -/
def keyAt (s : State) (k : Nat) : Bool := s.keys[k]?.getD false

/-- The test of SKP and SKNP: `K[k]`, or `KeyIndex(k)` when k > 0xF (R240, R241). -/
def keyRead (s : State) (k : Byte) : Except Raise Bool :=
  if k.toNat ≤ 0xF then .ok (keyAt s k.toNat) else .error ⟨.keyIndex, k.setWidth 16⟩

/-- `min { k | K[k] }` when some key is pressed (R243). -/
def lowestKey (s : State) : Option Nat := (List.range 16).find? (keyAt s)

/-- The host's write of one slot (R292). -/
def setKeyAt (s : State) (k : Nat) (pressed : Bool) : State :=
  { s with keys := s.keys.setIfInBounds k pressed }

/-! ## Timers (44_timers_input.md R253) -/

/-- A timer one lower, 0 staying at 0 (R253). -/
def countDown (b : Byte) : Byte := if b.toNat > 0 then b - 1 else b

/-- `tick()` (R253). -/
def tick (s : State) : State := { s with st := countDown s.st, dt := countDown s.dt }

/-! ## Faults (60_exceptions.md) -/

/-- FAULT's 3-bit code (R48, R270). -/
def faultCode : Option FaultKind → BitVec 3
  | none => 0
  | some .fetchBounds => 1
  | some .dataBounds => 2
  | some .stackOverflow => 3
  | some .stackUnderflow => 4
  | some .keyIndex => 5

/-- Fault entry (R272), from the state the step started in: FAULT, FAULT_PC, FAULT_OP and FAULT_ADDR are
written, nothing else changes, so the fault is precise (R273). There is no return but reset (R275). -/
def takeFault (s : State) (op : Word) (r : Raise) : State :=
  { s with fault := some r.kind, faultPc := s.pc, faultOp := op, faultAddr := r.addr }

/-- The machine is halted while FAULT is not 0 (R48, R272). -/
def halted (s : State) : Bool := s.fault.isSome

/-- The outcome of an instruction: its writes, or fault entry from the state before it, every write of it
discarded (R16, R272). `op` is the opcode, for FAULT_OP. -/
def settle (op : Word) (s : State) : Except Raise State → Host.Outcome State Fault Refusal
  | .ok t => .next t
  | .error r => .next (takeFault s op r)

end Sys2Proof.Machine
end

