-- ==== Sys2Proof/Machine/Flags.lean ====
section
/-! DEFINITION. Every value an instruction writes to VF as a flag (R32), and the order of the flag write, the
operand reads and the result write (R17, R184). -/

namespace Sys2Proof.Machine

/-- The register the flags go to (R32). -/
def vf : Nibble := 0xF

/-- 8xy4: 1 when b > 255 - a (R176, R183). -/
def carryFlag (a b : Byte) : Byte := if b.toNat > 255 - a.toNat then 1 else 0

/-- 8xy5: 1 when a > b, strictly (R177, R183). -/
def greaterFlag (a b : Byte) : Byte := if a.toNat > b.toNat then 1 else 0

/-- 8xy7: the complement of 8xy5's flag (R179). -/
def notGreaterFlag (a b : Byte) : Byte := if a.toNat > b.toNat then 0 else 1

/-- 8xy6: bit 0 of a (R178). -/
def lowBitFlag (a : Byte) : Byte := a &&& 0x01

/-- 8xyE: bit 7 of a in its place, 0x80 or 0x00 (R180, D9). -/
def highBitFlag (a : Byte) : Byte := a &&& 0x80

/-- Whether a visited cell counts as a collision (R223). -/
def collides (mode : Config.DrwCollision) (old bit : Bool) : Bool :=
  match mode with
  | .anyLitPixel => old
  | .setBitsOnly => old && bit

/-- A flag-writing ALU instruction (R176 to R180): the flag of the pre-op operands goes to VF first, then the
result to V[x], so that with x = 0xF the result stays (R17, R184). Under `preOp` the result is computed on the
pre-op operands, under `sequential` on the registers as the flag write left them (U4). -/
def flagThenResult (reading : Config.VfAliasReading) (flag result : Byte → Byte → Byte) (x y : Nibble)
    (s : State) : State :=
  let a := getV s x
  let b := getV s y
  let s1 := setV s vf (flag a b)
  match reading with
  | .preOp => setV s1 x (result a b)
  | .sequential => setV s1 x (result (getV s1 x) (getV s1 y))

end Sys2Proof.Machine
end

