-- ==== Sys2Proof/Machine/Operands.lean ====
section
/-! DEFINITION. The operand forms: addresses and targets (R103), glyph addresses (R203), BCD digits (R204), and
the sprite's cells and the blit over them (R223). -/

namespace Sys2Proof.Machine

/-- `zext_16(nnn)` (R103). -/
def zext (nnn : Addr12) : Word := nnn.setWidth 16

/-- The target of Bnnn: nnn + V0, kept in 16 bits (R148). -/
def jumpTarget (nnn : Addr12) (a : Byte) : Word := BitVec.ofNat 16 (nnn.toNat + a.toNat)

/-- The address Fx29 computes: 0x050 + a * 5, from the whole of a (R203). -/
def glyphAddress (a : Byte) : Word := BitVec.ofNat 16 (Config.fontBase + a.toNat * Config.glyphSize)

/-- The three bytes Fx33 stores, hundreds first (R204, D22: log entry 7). -/
def bcdDigits (a : Byte) : List Byte :=
  [BitVec.ofNat 8 (a.toNat / 100), BitVec.ofNat 8 (a.toNat / 10 % 10), BitVec.ofNat 8 (a.toNat % 10)]

/-- The result of 8xy6 in each mode (R178). -/
def shrResult (mode : Config.ShrMode) (a : Byte) : Byte :=
  match mode with
  | .observed => a <<< 1
  | .rightShift => a >>> 1

/-! ## The framebuffer (43_display.md) -/

/-- The cell of column `x` and row `y` (R46). -/
def cellIndex (x y : Nat) : Nat := y * 64 + x

/-- Every cell 0 (R220). -/
def clearedFb : Framebuffer := Vector.replicate 32 0

/-- Row `y` of the framebuffer; there are 32 (R46). -/
def fbRow (f : Framebuffer) (y : Nat) : BitVec 64 := f[y]?.getD 0

/-- `FB[idx]` (R46). -/
def fbCell (f : Framebuffer) (idx : Nat) : Bool := (fbRow f (idx / 64)).getLsbD (idx % 64)

/-- `FB[idx] <- FB[idx] ^ bit` (R223). -/
def fbXor (f : Framebuffer) (idx : Nat) (bit : Bool) : Framebuffer :=
  if bit then f.setIfInBounds (idx / 64) (fbRow f (idx / 64) ^^^ BitVec.twoPow 64 (idx % 64)) else f

/-- The cell a sprite's row `r` and column `c` falls on: coordinates wrap (R223, R224). -/
def spriteCell (vx vy : Byte) (r c : Nat) : Nat := cellIndex ((vx.toNat + c) % 64) ((vy.toNat + r) % 32)

/-- `(rows[r] >> (7 - c)) & 1`: bit 7 of a sprite row is its leftmost pixel (R223, D3: log entry 7). -/
def spriteBit (row : Byte) (c : Nat) : Bool := row.getLsbD (7 - c)

/-- One visit of the blit: the collision latched into VF's value, then the cell XORed (R223). -/
def blitCell (mode : Config.DrwCollision) (idx : Nat) (bit : Bool) (p : Framebuffer × Byte) :
    Framebuffer × Byte :=
  (fbXor p.1 idx bit, if collides mode (fbCell p.1 idx) bit then 1 else p.2)

/-- The 8 columns of one sprite row, left to right (R223). -/
def blitRow (mode : Config.DrwCollision) (vx vy : Byte) (r : Nat) (row : Byte) (p : Framebuffer × Byte) :
    Framebuffer × Byte :=
  (List.range 8).foldl (fun q c => blitCell mode (spriteCell vx vy r c) (spriteBit row c) q) p

/-- The sprite rows from row number `r` on, top to bottom (R223). -/
def blitRows (mode : Config.DrwCollision) (vx vy : Byte) : Nat → List Byte → Framebuffer × Byte →
    Framebuffer × Byte
  | _, [], p => p
  | r, row :: rows, p => blitRows mode vx vy (r + 1) rows (blitRow mode vx vy r row p)

/-- `blit(vx, vy, n, rows)` (R223): VF is reset, the cells are visited, and VF is left with the collision. -/
def blit (mode : Config.DrwCollision) (vx vy : Byte) (rows : List Byte) (s : State) : State :=
  let p := blitRows mode vx vy 0 rows (s.fb, 0)
  setV (setFb s p.1) vf p.2

end Sys2Proof.Machine
end

