-- ==== Sys2Proof/Machine/Alu.lean ====
section
/-! DEFINITION. 41_alu.md: register loads, arithmetic and logic, the shifts, and RND. All of it is 8-bit and
wraps (R182); none of these instructions can fault. -/

namespace Sys2Proof.Machine

/-- `V[x] <- b`, and PC moves on. -/
def writeAndAdvance (x : Nibble) (b : Byte) (s : State) : Host.Outcome State Fault Refusal :=
  .next (advance (setV s x b))

/-- LD Vx, nn (R170). -/
def execLdImm (x : Nibble) (nn : Byte) (s : State) : Host.Outcome State Fault Refusal :=
  writeAndAdvance x nn s

/-- ADD Vx, nn: no carry is recorded (R171). -/
def execAddImm (x : Nibble) (nn : Byte) (s : State) : Host.Outcome State Fault Refusal :=
  writeAndAdvance x (getV s x + nn) s

/-- LD Vx, Vy (R172). -/
def execLdReg (x y : Nibble) (s : State) : Host.Outcome State Fault Refusal :=
  writeAndAdvance x (getV s y) s

/-- OR Vx, Vy (R173). -/
def execOrReg (x y : Nibble) (s : State) : Host.Outcome State Fault Refusal :=
  writeAndAdvance x (getV s x ||| getV s y) s

/-- AND Vx, Vy (R174). -/
def execAndReg (x y : Nibble) (s : State) : Host.Outcome State Fault Refusal :=
  writeAndAdvance x (getV s x &&& getV s y) s

/-- XOR Vx, Vy (R175). -/
def execXorReg (x y : Nibble) (s : State) : Host.Outcome State Fault Refusal :=
  writeAndAdvance x (getV s x ^^^ getV s y) s

/-- 8xy4 under a reading of the VF alias (R176, R184). -/
def addWith (reading : Config.VfAliasReading) (x y : Nibble) (s : State) : State :=
  flagThenResult reading carryFlag (fun a b => a + b) x y s

/-- 8xy5 under a reading of the VF alias (R177, R184). -/
def subWith (reading : Config.VfAliasReading) (x y : Nibble) (s : State) : State :=
  flagThenResult reading greaterFlag (fun a b => a - b) x y s

/-- 8xy6 under a direction and a reading of the VF alias; y is ignored (R178, R184). -/
def shrWith (mode : Config.ShrMode) (reading : Config.VfAliasReading) (x : Nibble) (s : State) : State :=
  flagThenResult reading (fun a _ => lowBitFlag a) (fun a _ => shrResult mode a) x x s

/-- 8xy7 under a reading of the VF alias: Vx minus Vy, as KC8 gives it (R179, R184, D10). -/
def subnWith (reading : Config.VfAliasReading) (x y : Nibble) (s : State) : State :=
  flagThenResult reading notGreaterFlag (fun a b => a - b) x y s

/-- 8xyE under a reading of the VF alias; y is ignored (R180, R184). -/
def shlWith (reading : Config.VfAliasReading) (x : Nibble) (s : State) : State :=
  flagThenResult reading (fun a _ => highBitFlag a) (fun a _ => a <<< 1) x x s

/-- ADD Vx, Vy (R176). -/
def execAddReg (x y : Nibble) (s : State) : Host.Outcome State Fault Refusal :=
  .next (advance (addWith vfAliasReading x y s))

/-- SUB Vx, Vy (R177). -/
def execSubReg (x y : Nibble) (s : State) : Host.Outcome State Fault Refusal :=
  .next (advance (subWith vfAliasReading x y s))

/-- SHR Vx (R178). -/
def execShr (x _y : Nibble) (s : State) : Host.Outcome State Fault Refusal :=
  .next (advance (shrWith shrMode vfAliasReading x s))

/-- SUBN Vx, Vy (R179). -/
def execSubnReg (x y : Nibble) (s : State) : Host.Outcome State Fault Refusal :=
  .next (advance (subnWith vfAliasReading x y s))

/-- SHL Vx (R180). -/
def execShl (x _y : Nibble) (s : State) : Host.Outcome State Fault Refusal :=
  .next (advance (shlWith vfAliasReading x s))

/-- RND Vx, nn: one draw of the random source, and-ed with nn (R181). -/
def execRnd (x : Nibble) (nn : Byte) (s : State) : Host.Outcome State Fault Refusal :=
  writeAndAdvance x ((drawByte s).1 &&& nn) (drawByte s).2

end Sys2Proof.Machine
end

