-- ==== Sys2Proof/Machine/Control.lean ====
section
/-! DEFINITION. 40_control_flow.md: SYS, RET, JP, CALL, the register skips, JP V0; and UNKNOWN (R112). -/

namespace Sys2Proof.Machine

/-- SYS nnn: a no-op that advances (R140). -/
def execSys (_nnn : Addr12) (s : State) : Host.Outcome State Fault Refusal := .next (advance s)

/-- RET (R141). -/
def execRet (s : State) : Host.Outcome State Fault Refusal :=
  settle (encode .ret) s ((pop s).map fun p => setPc p.2 (p.1 + 2))

/-- JP nnn (R142). -/
def execJp (nnn : Addr12) (s : State) : Host.Outcome State Fault Refusal := .next (setPc s (zext nnn))

/-- CALL nnn: the pushed value is the CALL's own address (R143). -/
def execCall (nnn : Addr12) (s : State) : Host.Outcome State Fault Refusal :=
  settle (encode (.call nnn)) s ((push s s.pc).map fun t => setPc t (zext nnn))

/-- SE Vx, nn (R144). -/
def execSeImm (x : Nibble) (nn : Byte) (s : State) : Host.Outcome State Fault Refusal :=
  .next (skipWhen (getV s x == nn) s)

/-- SNE Vx, nn (R145). -/
def execSneImm (x : Nibble) (nn : Byte) (s : State) : Host.Outcome State Fault Refusal :=
  .next (skipWhen (getV s x != nn) s)

/-- SE Vx, Vy; bits 3-0 are ignored (R146). -/
def execSeReg (x y _n : Nibble) (s : State) : Host.Outcome State Fault Refusal :=
  .next (skipWhen (getV s x == getV s y) s)

/-- SNE Vx, Vy; bits 3-0 are ignored (R147). -/
def execSneReg (x y _n : Nibble) (s : State) : Host.Outcome State Fault Refusal :=
  .next (skipWhen (getV s x != getV s y) s)

/-- JP V0, nnn: always V0 (R148). -/
def execJpV0 (nnn : Addr12) (s : State) : Host.Outcome State Fault Refusal :=
  .next (setPc s (jumpTarget nnn (getV s 0)))

/-- UNKNOWN: nothing is written, PC included (R112). -/
def execUnknown (_op : Word) (s : State) : Host.Outcome State Fault Refusal := .next s

end Sys2Proof.Machine
end

