-- ==== Sys2Proof/Machine/Display.lean ====
section
/-! DEFINITION. 43_display.md: CLS and DRW. -/

namespace Sys2Proof.Machine

/-- CLS (R220, R221). -/
def execCls (s : State) : Host.Outcome State Fault Refusal :=
  .next (advance (setRedraw (setFb s clearedFb) true))

/-- DRW under a collision test (R222): the coordinates and all rows are read before any write. -/
def drawWith (mode : Config.DrwCollision) (x y n : Nibble) (s : State) : Except Raise State :=
  (loadBytes s s.i.toNat n.toNat).map fun rows =>
    advance (setRedraw (blit mode (getV s x) (getV s y) rows s) true)

/-- DRW Vx, Vy, n (R222). -/
def execDrw (x y n : Nibble) (s : State) : Host.Outcome State Fault Refusal :=
  settle (encode (.drw x y n)) s (drawWith drwCollision x y n s)

end Sys2Proof.Machine
end

