-- ==== Sys2Proof/Machine/Index.lean ====
section
/-! DEFINITION. 42_index_memory.md: the index register and the memory transfers. -/

namespace Sys2Proof.Machine

/-- LD I, nnn (R200). -/
def execLdI (nnn : Addr12) (s : State) : Host.Outcome State Fault Refusal :=
  .next (advance (setI s (zext nnn)))

/-- ADD I, Vx: mod 65536, no flag (R201). -/
def execAddI (x : Nibble) (s : State) : Host.Outcome State Fault Refusal :=
  .next (advance (setI s (s.i + (getV s x).setWidth 16)))

/-- LD F, Vx (R203). -/
def execLdF (x : Nibble) (s : State) : Host.Outcome State Fault Refusal :=
  .next (advance (setI s (glyphAddress (getV s x))))

/-- LD B, Vx: I is not changed (R204). -/
def execLdB (x : Nibble) (s : State) : Host.Outcome State Fault Refusal :=
  settle (encode (.ldB x)) s ((storeBytes s s.i.toNat (bcdDigits (getV s x))).map advance)

/-- LD [I], Vx: I is not changed (R205). -/
def execStoreRegs (x : Nibble) (s : State) : Host.Outcome State Fault Refusal :=
  settle (encode (.storeRegs x)) s ((storeBytes s s.i.toNat (regsUpTo s x)).map advance)

/-- LD Vx, [I]: I ends one past the last byte read, mod 65536 (R206). -/
def execLoadRegs (x : Nibble) (s : State) : Host.Outcome State Fault Refusal :=
  settle (encode (.loadRegs x)) s ((loadBytes s s.i.toNat (x.toNat + 1)).map fun bs =>
    advance (setI (setRegs s 0 bs) (BitVec.ofNat 16 (s.i.toNat + x.toNat + 1))))

end Sys2Proof.Machine
end

