-- ==== Sys2Proof/Machine/Timers.lean ====
section
/-! DEFINITION. 44_timers_input.md: the key skips, the timer moves and the key wait. The tick follows in the
step (Machine/Cycle.lean), after these effects. -/

namespace Sys2Proof.Machine

/-- SKP Vx (R240). -/
def execSkp (x : Nibble) (s : State) : Host.Outcome State Fault Refusal :=
  settle (encode (.skp x)) s ((keyRead s (getV s x)).map fun k => skipWhen k s)

/-- SKNP Vx (R241). -/
def execSknp (x : Nibble) (s : State) : Host.Outcome State Fault Refusal :=
  settle (encode (.sknp x)) s ((keyRead s (getV s x)).map fun k => skipWhen (!k) s)

/-- LD Vx, DT (R242). -/
def execLdVxDt (x : Nibble) (s : State) : Host.Outcome State Fault Refusal :=
  .next (advance (setV s x s.dt))

/-- LD Vx, K: the lowest pressed key, or nothing, PC included, while none is pressed (R243). -/
def execLdVxK (x : Nibble) (s : State) : Host.Outcome State Fault Refusal :=
  match lowestKey s with
  | some k => .next (advance (setV s x (BitVec.ofNat 8 k)))
  | none => .next s

/-- LD DT, Vx (R244). -/
def execLdDtVx (x : Nibble) (s : State) : Host.Outcome State Fault Refusal :=
  .next (advance (setDt s (getV s x)))

/-- LD ST, Vx (R245). -/
def execLdStVx (x : Nibble) (s : State) : Host.Outcome State Fault Refusal :=
  .next (advance (setSt s (getV s x)))

end Sys2Proof.Machine
end

