-- ==== Sys2Proof/Machine/Cycle.lean ====
section
/-! DEFINITION. The step cycle of 30_encoding.md R120: halted check, fetch (R104), decode, execute, tick; the
result the step reports (R121); and the placing of an instruction where the next step fetches. -/

namespace Sys2Proof.Machine

/-- What a step returns to the host (R121). An output, not state (R52): log entry 13. -/
inductive StepResult where
  /-- An instruction executed. -/
  | ok
  /-- An unassigned opcode, with its address: the log line of KC8. -/
  | unknown (pc op : Word)
  /-- This step faulted. -/
  | fault (k : FaultKind)
  /-- The machine was halted already and did nothing. -/
  | halted
  deriving DecidableEq, Repr

/-- Fetch (R104): the two bytes at PC, or `FetchBounds` with the least address at or above 0x1000 the fetch
reads (R270). -/
def fetch (s : State) : Except Raise (List Byte) :=
  if s.pc.toNat > 0x0FFE then .error ⟨.fetchBounds, BitVec.ofNat 16 (max s.pc.toNat Config.memSize)⟩
  else .ok [byteAt s s.pc.toNat, byteAt s (s.pc.toNat + 1)]

/-- What a completed instruction reports (R121). -/
def reportOf (pc : Word) : Instr → StepResult
  | .unknown op => .unknown pc op
  | _ => .ok

/-- The end of a step that executed an instruction: the tick, unless the instruction faulted (R120, R254). -/
def finishStep (pc : Word) (i : Instr) (t : State) : State × StepResult :=
  match t.fault with
  | some k => (t, .fault k)
  | none => (tick t, reportOf pc i)

/-- Decode and execute of the fetched bytes, and the end of the step (R120). -/
def runBytes (s : State) (bytes : List Byte) : Host.Outcome (State × StepResult) Fault Refusal :=
  match decode bytes with
  | .error e => .fault (.undecodable e)
  | .ok (i, _) =>
    match exec i s with
    | .next t => .next (finishStep s.pc i t)
    | .fault f => .fault f
    | .refused r => .refused r

/-- `step()` with the result it returns (R120, R121). A halted machine changes nothing, and a fetch fault
records 0 as its opcode (R270). -/
def runCycle (s : State) : Host.Outcome (State × StepResult) Fault Refusal :=
  if halted s then .next (s, .halted)
  else
    match fetch s with
    | .error r => .next (takeFault s 0 r, .fault r.kind)
    | .ok bytes => runBytes s bytes

/-- The state a cycle ends in, its result dropped. -/
def dropResult : Host.Outcome (State × StepResult) Fault Refusal → Host.Outcome State Fault Refusal
  | .next p => .next p.1
  | .fault f => .fault f
  | .refused r => .refused r

/-- A machine that will fetch: FAULT cleared if it was halted, PC at 0x200 if a fetch at PC would fault.
The reset state is left as it is. Log entry 16. -/
def readyToFetch (s : State) : State :=
  { s with fault := none, pc := if s.pc.toNat > 0x0FFE then 0x0200 else s.pc }

/-- An opcode's two bytes put at PC and PC + 1, high byte first (R73). -/
def placeOpcode (s : State) (op : Word) : State :=
  setMem s ((s.mem.store s.pc.toNat (highByte op)).store (s.pc.toNat + 1) (lowByte op))

end Sys2Proof.Machine
end

