-- ==== Sys2Proof/Machine/Step.lean ====
section
/-! DEFINITION. The step, as the host's interface wants it, and the placing of one opcode for it to run. -/

namespace Sys2Proof.Machine

/-- One `step()` (R120), its reported result dropped (`runCycle` has it). -/
def step (s : State) : Host.Outcome State Fault Refusal := dropResult (runCycle s)

/-- The state with the opcode whose table bits are `w` stored where the next step fetches. It stands for the
host's `loadProgram` (R82) of one opcode; log entries 15 and 16. -/
def State.withFetchWord (s : State) (nbits w : Nat) : State :=
  placeOpcode (readyToFetch s) (wordOfTableBits nbits w)

end Sys2Proof.Machine
end

