-- ==== Sys2Proof/Machine/HostOps.lean ====
section
/-! DEFINITION. The host interface of 60_exceptions.md R290 to R297 and the loader of 20_memory.md R82: the
operations the host may call between steps, in any state, halted included, in any order. -/

namespace Sys2Proof.Machine

/-- The operations of R290. -/
inductive HostOp where
  | step
  | loadProgram (bytes : List Byte)
  | setKey (k : Nat) (pressed : Bool)
  | readFramebuffer
  | ackRedraw
  | readSoundTimer
  | reset
  | debugRead
  deriving DecidableEq, Repr

/-- What an operation returns to the host. -/
inductive HostResult where
  /-- The result of `step()` (R291). -/
  | stepped (r : StepResult)
  | ok
  /-- `loadProgram` was given more than 3584 bytes (R82). -/
  | loadError
  /-- `setKey` was given a key above 15 (R292). -/
  | rejected
  /-- The 2048 cells, row-major (R293). -/
  | framebuffer (cells : List Bool)
  | soundTimer (st : Byte)
  /-- A copy of the whole state (R297). -/
  | state (s : State)
  deriving DecidableEq, Repr

/-- Bytes copied into memory from an address on, in order (R82). -/
def Memory.storeAll : Memory → Nat → List Byte → Memory
  | m, _, [] => m
  | m, a, b :: bs => Memory.storeAll (m.store a b) (a + 1) bs

/-- `loadProgram(bytes)`: all of them from 0x200 on, or none (R82). -/
def loadProgram (bytes : List Byte) (s : State) : State × HostResult :=
  if bytes.length ≤ Config.programMax then (setMem s (s.mem.storeAll Config.programBase bytes), .ok)
  else (s, .loadError)

/-- `setKey(k, pressed)` (R292). -/
def setKey (k : Nat) (pressed : Bool) (s : State) : State × HostResult :=
  if k ≤ 15 then (setKeyAt s k pressed, .ok) else (s, .rejected)

/-- `readFramebuffer()`: the cells alone (R293). REDRAW, which R294 has read with `debugRead` or together with
the framebuffer, is handed out by `debugRead` only: DESIGN CHOICE, log entry 25. -/
def readFramebuffer (s : State) : State × HostResult :=
  (s, .framebuffer ((List.range 2048).map (fbCell s.fb)))

/-- `ackRedraw()` (R294). -/
def ackRedraw (s : State) : State × HostResult := (setRedraw s false, .ok)

/-- `readSoundTimer()` (R295). -/
def readSoundTimer (s : State) : State × HostResult := (s, .soundTimer s.st)

/-- `reset()`: every piece of the spec's state takes its reset value (R296, R310). The model's counter of
draws is kept, so that the draws after a reset are as free as those before it (log entry 6). -/
def hostReset (s : State) : State × HostResult := ({ State.reset with draws := s.draws }, .ok)

/-- `debugRead()` (R297): the one operation that hands out REDRAW (log entry 25). -/
def debugRead (s : State) : State × HostResult := (s, .state s)

/-- Any one action of the host (R21, R290). -/
def hostAct (o : HostOp) (s : State) : Host.Outcome (State × HostResult) Fault Refusal :=
  match o with
  | .step =>
    match runCycle s with
    | .next (t, r) => .next (t, .stepped r)
    | .fault f => .fault f
    | .refused r => .refused r
  | .loadProgram bytes => .next (loadProgram bytes s)
  | .setKey k pressed => .next (setKey k pressed s)
  | .readFramebuffer => .next (readFramebuffer s)
  | .ackRedraw => .next (ackRedraw s)
  | .readSoundTimer => .next (readSoundTimer s)
  | .reset => .next (hostReset s)
  | .debugRead => .next (debugRead s)

end Sys2Proof.Machine
end

