-- ==== Sys2Proof/Safety.lean ====
section
/-! DEFINITION. The terms the statements are written in: what two states have in common (frames), what may
write a piece of state, and the invariant of the machine. -/

namespace Sys2Proof.Machine

/-- The pieces of the state (R52), and the model's counter of draws. -/
inductive Part where
  | regs | index | pc | stack | delay | sound | keys | framebuffer | redraw | faults | mem | draws
  deriving DecidableEq, Repr

/-- That a piece of the state is the same in two states, said through the reads of it: every register, every
slot, every key, every cell, every byte of memory. -/
def Part.same : Part → State → State → Prop
  | .regs, s, t => ∀ r, getV t r = getV s r
  | .index, s, t => t.i = s.i
  | .pc, s, t => t.pc = s.pc
  | .stack, s, t => t.sp = s.sp ∧ ∀ k, slot t k = slot s k
  | .delay, s, t => t.dt = s.dt
  | .sound, s, t => t.st = s.st
  | .keys, s, t => ∀ k, keyAt t k = keyAt s k
  | .framebuffer, s, t => ∀ idx, idx < 2048 → fbCell t.fb idx = fbCell s.fb idx
  | .redraw, s, t => t.redraw = s.redraw
  | .faults, s, t =>
    t.fault = s.fault ∧ t.faultPc = s.faultPc ∧ t.faultOp = s.faultOp ∧ t.faultAddr = s.faultAddr
  | .mem, s, t => ∀ a, byteAt t a = byteAt s a
  | .draws, s, t => t.draws = s.draws

/-- Every piece of the state but those listed is the same: the frame of an instruction. -/
def unchangedBut (changed : List Part) (s t : State) : Prop := ∀ p, p ∉ changed → p.same s t

/-- Every register but those listed holds what it held. -/
def regsUnchangedBut (written : List Nibble) (s t : State) : Prop :=
  ∀ r, r ∉ written → getV t r = getV s r

/-- Every byte of memory outside `n` bytes from `a` on reads as before. -/
def memUnchangedOutside (a n : Nat) (s t : State) : Prop :=
  ∀ b, ¬(a ≤ b ∧ b < a + n) → byteAt t b = byteAt s b

/-- PC moved on by `n` (R36, R37). -/
def pcMoved (n : Nat) (s t : State) : Prop := t.pc.toNat = (s.pc.toNat + n) % 65536

/-- Fault entry (R270, R272) seen from the state before it: FAULT, FAULT_PC and FAULT_ADDR are as named, and
everything but the fault fields is what it was, every write of the instruction discarded. What FAULT_OP holds
is said of the step, which knows the opcode it fetched (Obligations.FaultingStepIsPrecise). -/
def faultedAs (k : FaultKind) (addr : Nat) (s t : State) : Prop :=
  t.fault = some k ∧ t.faultPc = s.pc ∧ t.faultAddr.toNat = addr ∧ unchangedBut [.faults] s t

/-- The registers an instruction may write: R33's list of what it writes through a field, Fx0A only while a key
is pressed, and R32's list of what writes VF as a flag. -/
def mayWriteV (i : Instr) (s : State) (r : Nibble) : Prop :=
  match i with
  | .ldImm x _ | .addImm x _ | .ldReg x _ | .orReg x _ | .andReg x _ | .xorReg x _ | .rnd x _ | .ldVxDt x =>
    r = x
  | .addReg x _ | .subReg x _ | .shr x _ | .subnReg x _ | .shl x _ => r = x ∨ r = 0xF
  | .drw _ _ _ => r = 0xF
  | .ldVxK x => r = x ∧ ∃ k, k < 16 ∧ keyAt s k = true
  | .loadRegs x => r.toNat ≤ x.toNat
  | .cls | .ret | .sys _ | .jp _ | .call _ | .seImm _ _ | .sneImm _ _ | .seReg _ _ _ | .sneReg _ _ _ | .ldI _
  | .jpV0 _ | .skp _ | .sknp _ | .ldDtVx _ | .ldStVx _ | .addI _ | .ldF _ | .ldB _ | .storeRegs _
  | .unknown _ => False

/-- What R36 lists for PC, instruction by instruction. -/
def pcUpdated (i : Instr) (s t : State) : Prop :=
  match i with
  | .cls | .sys _ | .ldImm _ _ | .addImm _ _ | .ldReg _ _ | .orReg _ _ | .andReg _ _ | .xorReg _ _
  | .addReg _ _ | .subReg _ _ | .shr _ _ | .subnReg _ _ | .shl _ _ | .ldI _ | .rnd _ _ | .drw _ _ _
  | .ldVxDt _ | .ldDtVx _ | .ldStVx _ | .addI _ | .ldF _ | .ldB _ | .storeRegs _ | .loadRegs _ => pcMoved 2 s t
  | .seImm _ _ | .sneImm _ _ | .seReg _ _ _ | .sneReg _ _ _ | .skp _ | .sknp _ => pcMoved 2 s t ∨ pcMoved 4 s t
  | .jp nnn | .call nnn => t.pc.toNat = nnn.toNat
  | .jpV0 nnn => t.pc.toNat = nnn.toNat + (getV s 0).toNat
  | .ret => t.pc.toNat = ((slot s (s.sp.val - 1)).toNat + 2) % 65536
  | .ldVxK _ => pcMoved 2 s t ∨ t.pc = s.pc
  | .unknown _ => t.pc = s.pc

/-- The instructions R270's table lets raise a fault. -/
def mayFault : Instr → Bool
  | .drw _ _ _ | .ldB _ | .storeRegs _ | .loadRegs _ | .call _ | .ret | .skp _ | .sknp _ => true
  | .cls | .sys _ | .jp _ | .seImm _ _ | .sneImm _ _ | .seReg _ _ _ | .ldImm _ _ | .addImm _ _ | .ldReg _ _
  | .orReg _ _ | .andReg _ _ | .xorReg _ _ | .addReg _ _ | .subReg _ _ | .shr _ _ | .subnReg _ _ | .shl _ _
  | .sneReg _ _ _ | .ldI _ | .jpV0 _ | .rnd _ _ | .ldVxDt _ | .ldVxK _ | .ldDtVx _ | .ldStVx _ | .addI _
  | .ldF _ | .unknown _ => false

/-- The opcode at PC, with no bounds check (R73). -/
def opcodeAtPc (s : State) : Word := wordOfBytes (byteAt s s.pc.toNat) (byteAt s (s.pc.toNat + 1))

/-- A machine that is not halted and whose fetch is in bounds (R104, R120). -/
def canFetch (s : State) : Prop := s.fault = none ∧ s.pc.toNat ≤ 0x0FFE

/-- What the fault fields say of the state they are in (R48, R270, R273): nothing is recorded while there is no
fault; a recorded fault names the PC, which fault entry left in place, and the condition that raised it. -/
def faultRecordOk (s : State) : Prop :=
  match s.fault with
  | none => s.faultPc = 0 ∧ s.faultOp = 0 ∧ s.faultAddr = 0
  | some .fetchBounds =>
    s.faultPc = s.pc ∧ 0x0FFE < s.pc.toNat ∧ s.faultOp = 0 ∧ s.faultAddr.toNat = max s.pc.toNat 0x1000
  | some .dataBounds =>
    s.faultPc = s.pc ∧ s.pc.toNat ≤ 0x0FFE ∧ s.faultAddr.toNat = max s.i.toNat 0x1000
  | some .stackOverflow => s.faultPc = s.pc ∧ s.pc.toNat ≤ 0x0FFE ∧ s.sp.val = 16 ∧ s.faultAddr = 0
  | some .stackUnderflow =>
    s.faultPc = s.pc ∧ s.pc.toNat ≤ 0x0FFE ∧ s.sp.val = 0 ∧ s.faultOp = 0x00EE ∧ s.faultAddr = 0
  | some .keyIndex =>
    s.faultPc = s.pc ∧ s.pc.toNat ≤ 0x0FFE ∧ s.faultAddr = (getV s (fieldX s.faultOp)).setWidth 16
      ∧ 0xF < s.faultAddr.toNat

/-- The invariant of the machine: memory is in its canonical form; every stack slot holds the address of an
instruction that could be fetched, so PC never passes 0x10FE (R37) and its 16-bit wrap is never reached; and
the fault record says what it should. -/
structure Inv (s : State) : Prop where
  memory : s.mem.wf = true
  slots : ∀ k, (slot s k).toNat ≤ 0x0FFE
  pcBound : s.pc.toNat ≤ 0x10FE
  record : faultRecordOk s

end Sys2Proof.Machine
end

