-- ==== Sys2Proof/Certificates/Slice0/Obligations.lean ====
section
/-! DEFINITION. The statements for the provers, taken from the numbered rules of spec/. `exec` is the execute
phase alone; the tick that follows it belongs to the step (R120), and has statements of its own. -/

open Sys2Proof Sys2Proof.Machine

/-! ## Reset (10_state.md) -/

/-- 10_state.md R51's table. The zeros it marks D24, D6 and D17 are the spec's own decision, not the source's
(log entry 1), so the statement is a derived one. The model's counter of draws is not mentioned (log 6). -/
def Obligations.ResetHoldsTheTabledValues : Prop :=
  (∀ r, getV State.reset r = 0) ∧ State.reset.i = 0 ∧ State.reset.pc = 0x0200 ∧ State.reset.sp.val = 0 ∧
  (∀ k, slot State.reset k = 0) ∧ State.reset.dt = 0 ∧ State.reset.st = 0 ∧
  (∀ k, keyAt State.reset k = false) ∧ (∀ idx, fbCell State.reset.fb idx = false) ∧
  State.reset.redraw = false ∧ faultCode State.reset.fault = 0 ∧ State.reset.faultPc = 0 ∧
  State.reset.faultOp = 0 ∧ State.reset.faultAddr = 0 ∧ fontBytes.length = 80 ∧
  ∀ a, byteAt State.reset a = if 0x050 ≤ a ∧ a < 0x0A0 then fontBytes.getD (a - 0x050) 0 else 0

/-! ## Encoding and decoding (30_encoding.md) -/

/-- R110: the canonical 35 opcodes decode to the 35 rows of R106 in order. -/
def Obligations.CanonicalOpcodesDecodeInOrder : Prop :=
  [0x00E0, 0x00EE, 0x0000, 0x1000, 0x2000, 0x3000, 0x4000, 0x5000, 0x6000, 0x7000].map decodeWord =
    [.cls, .ret, .sys 0, .jp 0, .call 0, .seImm 0 0, .sneImm 0 0, .seReg 0 0 0, .ldImm 0 0, .addImm 0 0] ∧
  [0x8000, 0x8001, 0x8002, 0x8003, 0x8004, 0x8005, 0x8006, 0x8007, 0x800E].map decodeWord =
    [.ldReg 0 0, .orReg 0 0, .andReg 0 0, .xorReg 0 0, .addReg 0 0, .subReg 0 0, .shr 0 0, .subnReg 0 0,
      .shl 0 0] ∧
  [0x9000, 0xA000, 0xB000, 0xC000, 0xD000, 0xE09E, 0xE0A1].map decodeWord =
    [.sneReg 0 0 0, .ldI 0, .jpV0 0, .rnd 0 0, .drw 0 0 0, .skp 0, .sknp 0] ∧
  [0xF007, 0xF00A, 0xF015, 0xF018, 0xF01E, 0xF029, 0xF033, 0xF055, 0xF065].map decodeWord =
    [.ldVxDt 0, .ldVxK 0, .ldDtVx 0, .ldStVx 0, .addI 0, .ldF 0, .ldB 0, .storeRegs 0, .loadRegs 0] ∧
  opcodeTable.length = 35

/-- R100 to R103, R105, R106: the bytes of a well-formed instruction decode to that instruction, every operand
kept, and the bytes after it are handed on. -/
def Obligations.EncodedInstructionDecodesToItself : Prop :=
  ∀ (i : Instr) (rest : List Byte), i.wf = true → decode (encodeBytes i ++ rest) = .ok (i, rest)

/-- Every opcode decodes to a well-formed instruction whose encoding is that opcode. That every opcode has a
reading is R105, R106 and R112's; that an instruction keeps the fields it ignores (bits 3-0 of 5xyN and 9xyN, y
of SHR and SHL, nnn of SYS) and UNKNOWN its opcode, so that no bit is lost, is the model's choice (log entry 11,
DESIGN CHOICE). -/
def Obligations.DecodedOpcodeEncodesToItself : Prop :=
  ∀ op : Word, (decodeWord op).wf = true ∧ encode (decodeWord op) = op

/-- R109's map of the unassigned opcodes (derived there from R106 and R107): an opcode is UNKNOWN exactly in
families 8, E and F, at the sub-opcodes the map lists. -/
def Obligations.UnknownOpcodesAreTheUnassignedOnes : Prop :=
  ∀ op : Word, decodeWord op = .unknown op ↔
    (op.toNat / 0x1000 = 0x8 ∧ op.toNat % 0x10 ∈ [0x8, 0x9, 0xA, 0xB, 0xC, 0xD, 0xF]) ∨
    (op.toNat / 0x1000 = 0xE ∧ op.toNat % 0x100 ∉ [0x9E, 0xA1]) ∨
    (op.toNat / 0x1000 = 0xF ∧
      op.toNat % 0x100 ∉ [0x07, 0x0A, 0x15, 0x18, 0x1E, 0x29, 0x33, 0x55, 0x65])

/-- R108 (derived there): the only rows whose match sets meet are CLS and RET with SYS, and these come first. -/
def Obligations.OnlyClsAndRetOverlapSys : Prop :=
  ∀ (j k : Nat) (r q : OpcodeRow) (op : Word), j < k → opcodeTable[j]? = some r → opcodeTable[k]? = some q →
    r.accepts op = true → q.accepts op = true → (r.form = .cls ∨ r.form = .ret) ∧ q.form = .sys

/-- R100, R73: the decoder takes exactly two bytes, the first one the high byte, and refuses fewer by name. -/
def Obligations.DecoderTakesTwoBytes : Prop :=
  (∀ (hi lo : Byte) (rest : List Byte), ∃ op : Word, op.toNat = hi.toNat * 256 + lo.toNat ∧
    decode (hi :: lo :: rest) = .ok (decodeWord op, rest)) ∧
  decode [] = .error .truncated ∧ ∀ b : Byte, decode [b] = .error .truncated

/-! ## The step (30_encoding.md, 60_exceptions.md) -/

/-- R104, R73: the fetch reads the bytes at PC and PC + 1, high byte first, at any PC up to 0x0FFE, odd ones
too; past it, it raises FetchBounds with the least address at or above 0x1000 that it reads. -/
def Obligations.FetchIsBigEndianAndBounded : Prop :=
  ∀ s : State,
    (s.pc.toNat ≤ 0x0FFE → fetch s = .ok [byteAt s s.pc.toNat, byteAt s (s.pc.toNat + 1)] ∧
      (opcodeAtPc s).toNat = (byteAt s s.pc.toNat).toNat * 256 + (byteAt s (s.pc.toNat + 1)).toNat) ∧
    (0x0FFE < s.pc.toNat → ∃ r, fetch s = .error r ∧ r.kind = .fetchBounds ∧
      r.addr.toNat = max s.pc.toNat 0x1000)

/-- R120: when the bytes at PC decode to `i`, a step is `exec i`, then the tick unless the instruction
faulted. -/
def Obligations.StepRunsTheDecodedInstruction : Prop :=
  ∀ (s t : State) (i : Instr), canFetch s →
    decode [byteAt s s.pc.toNat, byteAt s (s.pc.toNat + 1)] = .ok (i, []) → exec i s = .next t →
    step s = .next (if t.fault = none then tick t else t)

/-- R104, R270, R272: a fetch out of range is fault entry with opcode 0 and address max(PC, 0x1000), and no
tick. -/
def Obligations.FetchPastMemoryFaults : Prop :=
  ∀ s : State, s.fault = none → 0x0FFE < s.pc.toNat →
    ∃ t, step s = .next t ∧ faultedAs .fetchBounds (max s.pc.toNat 0x1000) s t ∧ t.faultOp = 0

/-- R121: a step always ends in a next state and returns exactly one of the four results, each in its own
case. -/
def Obligations.StepReportsWhatHappened : Prop :=
  ∀ s : State, ∃ t r, runCycle s = .next (t, r) ∧ step s = .next t ∧
    match r with
    | .halted => s.fault ≠ none ∧ t = s
    | .fault k => s.fault = none ∧ t.fault = some k
    | .unknown pc op =>
      s.fault = none ∧ t.fault = none ∧ pc = s.pc ∧ op = opcodeAtPc s ∧ decodeWord op = .unknown op
    | .ok =>
      s.fault = none ∧ t.fault = none ∧ decodeWord (opcodeAtPc s) ≠ .unknown (opcodeAtPc s)

/-- R272, R273, R16 (R273 is derived in the spec): a step that faults writes the four fault fields and nothing
else; FAULT_PC is its PC and FAULT_OP the opcode it fetched, or 0 for a fetch fault. -/
def Obligations.FaultingStepIsPrecise : Prop :=
  ∀ (s t : State) (k : FaultKind), s.fault = none → step s = .next t → t.fault = some k →
    t.faultPc = s.pc ∧ t.faultOp = (if k = .fetchBounds then 0 else opcodeAtPc s) ∧
      unchangedBut [.faults] s t

/-- R120, R272, R275: a step of a faulted machine returns Halted and changes nothing, however often it is
stepped. -/
def Obligations.FaultedMachineStaysHalted : Prop :=
  ∀ (s : State) (n : Nat), s.fault ≠ none →
    runCycle s = .next (s, .halted) ∧ step s = .next s ∧ Sys2Proof.core.run n s = .next s

/-- R253: each timer drops by one, a timer at 0 stays at 0, and nothing else changes. -/
def Obligations.TickLowersEachTimerToAFloorOfZero : Prop :=
  ∀ s : State, (tick s).st.toNat = s.st.toNat - 1 ∧ (tick s).dt.toNat = s.dt.toNat - 1 ∧
    unchangedBut [.delay, .sound] s (tick s)

/-- R254, R255 (R255 is derived in the spec): a value written to DT or ST is one lower, or 0, when its step
ends, and Fx07 reads DT before its own step's tick. -/
def Obligations.TimerValuesAtTheEndOfTheirStep : Prop :=
  ∀ (s : State) (x : Nibble), canFetch s →
    (opcodeAtPc s = encode (.ldDtVx x) →
      ∃ t, step s = .next t ∧ t.dt.toNat = (getV s x).toNat - 1 ∧ t.st.toNat = s.st.toNat - 1) ∧
    (opcodeAtPc s = encode (.ldStVx x) →
      ∃ t, step s = .next t ∧ t.st.toNat = (getV s x).toNat - 1 ∧ t.dt.toNat = s.dt.toNat - 1) ∧
    (opcodeAtPc s = encode (.ldVxDt x) →
      ∃ t, step s = .next t ∧ getV t x = s.dt ∧ t.dt.toNat = s.dt.toNat - 1 ∧ t.st.toNat = s.st.toNat - 1)

/-! ## Control flow (40_control_flow.md) -/

/-- R140. -/
def Obligations.SysOnlyAdvances : Prop :=
  ∀ (nnn : Addr12) (s : State), ∃ t, exec (.sys nnn) s = .next t ∧ pcMoved 2 s t ∧ unchangedBut [.pc] s t

/-- R112 with R120 and R121: UNKNOWN executes as nothing at all, and a step that fetches an unassigned opcode
completes, returns Unknown with its address and opcode, ticks the timers and changes no more than them. -/
def Obligations.UnknownIsANoOpThatStays : Prop :=
  (∀ (op : Word) (s : State), exec (.unknown op) s = .next s) ∧
  ∀ s : State, canFetch s → decodeWord (opcodeAtPc s) = .unknown (opcodeAtPc s) →
    ∃ t, runCycle s = .next (t, .unknown s.pc (opcodeAtPc s)) ∧ t.dt.toNat = s.dt.toNat - 1 ∧
      t.st.toNat = s.st.toNat - 1 ∧ unchangedBut [.delay, .sound] s t

/-- R141: RET pops and goes two bytes past the popped address, the slot keeping its value; with an empty stack
it faults (D15). -/
def Obligations.RetResumesAfterTheCall : Prop :=
  ∀ s : State,
    (0 < s.sp.val → ∃ t, exec .ret s = .next t ∧ t.sp.val = s.sp.val - 1 ∧
      (∀ k, slot t k = slot s k) ∧ t.pc.toNat = ((slot s (s.sp.val - 1)).toNat + 2) % 65536 ∧
      unchangedBut [.pc, .stack] s t) ∧
    (s.sp.val = 0 → ∃ t, exec .ret s = .next t ∧ faultedAs .stackUnderflow 0 s t)

/-- R142. -/
def Obligations.JumpGoesToItsAddress : Prop :=
  ∀ (nnn : Addr12) (s : State),
    ∃ t, exec (.jp nnn) s = .next t ∧ t.pc.toNat = nnn.toNat ∧ unchangedBut [.pc] s t

/-- R143: CALL pushes its own address and jumps; with a full stack it faults (D15). -/
def Obligations.CallPushesItsOwnAddress : Prop :=
  ∀ (nnn : Addr12) (s : State),
    (s.sp.val < 16 → ∃ t, exec (.call nnn) s = .next t ∧ t.sp.val = s.sp.val + 1 ∧
      (∀ k, slot t k = if k = s.sp.val then s.pc else slot s k) ∧ t.pc.toNat = nnn.toNat ∧
      unchangedBut [.pc, .stack] s t) ∧
    (s.sp.val = 16 → ∃ t, exec (.call nnn) s = .next t ∧
      faultedAs .stackOverflow 0 s t)

/-- R144, R145. -/
def Obligations.SkipsOnAnImmediate : Prop :=
  ∀ (x : Nibble) (nn : Byte) (s : State),
    (∃ t, exec (.seImm x nn) s = .next t ∧
      pcMoved (if (getV s x).toNat = nn.toNat then 4 else 2) s t ∧ unchangedBut [.pc] s t) ∧
    (∃ t, exec (.sneImm x nn) s = .next t ∧
      pcMoved (if (getV s x).toNat ≠ nn.toNat then 4 else 2) s t ∧ unchangedBut [.pc] s t)

/-- R146, R147: bits 3-0 of the opcode, `n`, play no part. -/
def Obligations.SkipsOnTwoRegisters : Prop :=
  ∀ (x y n : Nibble) (s : State),
    (∃ t, exec (.seReg x y n) s = .next t ∧
      pcMoved (if (getV s x).toNat = (getV s y).toNat then 4 else 2) s t ∧ unchangedBut [.pc] s t) ∧
    (∃ t, exec (.sneReg x y n) s = .next t ∧
      pcMoved (if (getV s x).toNat ≠ (getV s y).toNat then 4 else 2) s t ∧ unchangedBut [.pc] s t)

/-- R148: the sum with V0 is not wrapped to 12 bits. -/
def Obligations.JumpWithV0AddsV0 : Prop :=
  ∀ (nnn : Addr12) (s : State), ∃ t, exec (.jpV0 nnn) s = .next t ∧
    t.pc.toNat = nnn.toNat + (getV s 0).toNat ∧ unchangedBut [.pc] s t

/-! ## Loads, arithmetic, logic (41_alu.md) -/

/-- R170, R172. -/
def Obligations.RegisterLoads : Prop :=
  ∀ (x y : Nibble) (nn : Byte) (s : State),
    (∃ t, exec (.ldImm x nn) s = .next t ∧ getV t x = nn ∧ regsUnchangedBut [x] s t ∧ pcMoved 2 s t ∧
      unchangedBut [.regs, .pc] s t) ∧
    (∃ t, exec (.ldReg x y) s = .next t ∧ getV t x = getV s y ∧ regsUnchangedBut [x] s t ∧ pcMoved 2 s t ∧
      unchangedBut [.regs, .pc] s t)

/-- R171: no carry is recorded; VF is written only as the destination. -/
def Obligations.AddImmediateWrapsWithoutACarry : Prop :=
  ∀ (x : Nibble) (nn : Byte) (s : State), ∃ t, exec (.addImm x nn) s = .next t ∧
    (getV t x).toNat = ((getV s x).toNat + nn.toNat) % 256 ∧ regsUnchangedBut [x] s t ∧ pcMoved 2 s t ∧
    unchangedBut [.regs, .pc] s t

/-- R173, R174, R175: or, and, xor, bit by bit; no flag. -/
def Obligations.LogicIsBitwise : Prop :=
  ∀ (x y : Nibble) (s : State),
    (∃ t, exec (.orReg x y) s = .next t ∧
      (∀ k, (getV t x).getLsbD k = ((getV s x).getLsbD k || (getV s y).getLsbD k)) ∧
      regsUnchangedBut [x] s t ∧ pcMoved 2 s t ∧ unchangedBut [.regs, .pc] s t) ∧
    (∃ t, exec (.andReg x y) s = .next t ∧
      (∀ k, (getV t x).getLsbD k = ((getV s x).getLsbD k && (getV s y).getLsbD k)) ∧
      regsUnchangedBut [x] s t ∧ pcMoved 2 s t ∧ unchangedBut [.regs, .pc] s t) ∧
    (∃ t, exec (.xorReg x y) s = .next t ∧
      (∀ k, (getV t x).getLsbD k = ((getV s x).getLsbD k ^^ (getV s y).getLsbD k)) ∧
      regsUnchangedBut [x] s t ∧ pcMoved 2 s t ∧ unchangedBut [.regs, .pc] s t)

/-- R176: the sum mod 256 in Vx; in VF the carry, unless VF is Vx. -/
def Obligations.AddSetsTheCarry : Prop :=
  ∀ (x y : Nibble) (s : State), ∃ t, exec (.addReg x y) s = .next t ∧
    (getV t x).toNat = ((getV s x).toNat + (getV s y).toNat) % 256 ∧
    (x ≠ 0xF → (getV t 0xF).toNat = if (getV s x).toNat + (getV s y).toNat > 255 then 1 else 0) ∧
    regsUnchangedBut [x, 0xF] s t ∧ pcMoved 2 s t ∧ unchangedBut [.regs, .pc] s t

/-- R177: the difference mod 256 in Vx; in VF whether Vx was above Vy, unless VF is Vx. -/
def Obligations.SubSetsGreater : Prop :=
  ∀ (x y : Nibble) (s : State), ∃ t, exec (.subReg x y) s = .next t ∧
    ((getV t x).toNat : Int) = ((getV s x).toNat - (getV s y).toNat : Int) % 256 ∧
    (x ≠ 0xF → (getV t 0xF).toNat = if (getV s x).toNat > (getV s y).toNat then 1 else 0) ∧
    regsUnchangedBut [x, 0xF] s t ∧ pcMoved 2 s t ∧ unchangedBut [.regs, .pc] s t

/-- R178: VF gets bit 0 of Vx; Vx is shifted left in the default mode (Observed, D8: log entry 4), which is the
one `exec` uses, and right in the mode RightShift; y plays no part. -/
def Obligations.ShrShiftsAsItsModeSays : Prop :=
  (∀ (x y : Nibble) (s : State),
    exec (.shr x y) s = .next (advance (shrWith .observed .preOp x s))) ∧
  ∀ (mode : Config.ShrMode) (x : Nibble) (s t : State), t = advance (shrWith mode .preOp x s) →
    (getV t x).toNat = (match mode with
      | .observed => (getV s x).toNat * 2 % 256
      | .rightShift => (getV s x).toNat / 2) ∧
    (x ≠ 0xF → (getV t 0xF).toNat = (getV s x).toNat % 2) ∧
    regsUnchangedBut [x, 0xF] s t ∧ pcMoved 2 s t ∧ unchangedBut [.regs, .pc] s t

/-- R179: the same difference as SUB, Vx minus Vy, with the complement of its flag. -/
def Obligations.SubnSetsNotGreater : Prop :=
  ∀ (x y : Nibble) (s : State), ∃ t, exec (.subnReg x y) s = .next t ∧
    ((getV t x).toNat : Int) = ((getV s x).toNat - (getV s y).toNat : Int) % 256 ∧
    (x ≠ 0xF → (getV t 0xF).toNat = if (getV s x).toNat > (getV s y).toNat then 0 else 1) ∧
    regsUnchangedBut [x, 0xF] s t ∧ pcMoved 2 s t ∧ unchangedBut [.regs, .pc] s t

/-- R180: a left shift, with VF 0x80 or 0x00 as bit 7 of Vx was; y plays no part. -/
def Obligations.ShlKeepsBitSevenInPlace : Prop :=
  ∀ (x y : Nibble) (s : State), ∃ t, exec (.shl x y) s = .next t ∧
    (getV t x).toNat = (getV s x).toNat * 2 % 256 ∧
    (x ≠ 0xF → (getV t 0xF).toNat = if (getV s x).toNat ≥ 0x80 then 0x80 else 0x00) ∧
    regsUnchangedBut [x, 0xF] s t ∧ pcMoved 2 s t ∧ unchangedBut [.regs, .pc] s t

/-- 93_implementation_defined.md U4, R184: what the reading `Sequential` leaves, beside what `PreOp`, the
default (D7: log entry 3), leaves. With x = 0xF the result is computed from the flag; with y = 0xF and another
x, the new flag is the second operand; elsewhere the two readings agree. -/
def Obligations.SequentialReadingDiffersOnlyAtVF : Prop :=
  (∀ (x y : Nibble) (s : State), x ≠ 0xF → y ≠ 0xF →
    addWith .sequential x y s = addWith .preOp x y s ∧ subWith .sequential x y s = subWith .preOp x y s ∧
    subnWith .sequential x y s = subnWith .preOp x y s) ∧
  (∀ (mode : Config.ShrMode) (x : Nibble) (s : State), x ≠ 0xF →
    shrWith mode .sequential x s = shrWith mode .preOp x s ∧
    shlWith .sequential x s = shlWith .preOp x s) ∧
  (∀ (y : Nibble) (s : State), y ≠ 0xF →
    getV (addWith .sequential 0xF y s) 0xF = carryFlag (getV s 0xF) (getV s y) + getV s y ∧
    getV (subWith .sequential 0xF y s) 0xF = greaterFlag (getV s 0xF) (getV s y) - getV s y ∧
    getV (subnWith .sequential 0xF y s) 0xF = notGreaterFlag (getV s 0xF) (getV s y) - getV s y) ∧
  (∀ (x : Nibble) (s : State), x ≠ 0xF →
    getV (addWith .sequential x 0xF s) x = getV s x + carryFlag (getV s x) (getV s 0xF) ∧
    getV (subWith .sequential x 0xF s) x = getV s x - greaterFlag (getV s x) (getV s 0xF) ∧
    getV (subnWith .sequential x 0xF s) x = getV s x - notGreaterFlag (getV s x) (getV s 0xF)) ∧
  ∀ s : State,
    (getV (shrWith .observed .sequential 0xF s) 0xF).toNat = (getV s 0xF).toNat % 2 * 2 ∧
    getV (shrWith .rightShift .sequential 0xF s) 0xF = 0 ∧ getV (shlWith .sequential 0xF s) 0xF = 0 ∧
    (getV (addWith .sequential 0xF 0xF s) 0xF).toNat = 2 * (carryFlag (getV s 0xF) (getV s 0xF)).toNat ∧
    getV (subWith .sequential 0xF 0xF s) 0xF = 0 ∧ getV (subnWith .sequential 0xF 0xF s) 0xF = 0

/-- R181: RND takes one draw, whatever it is, and leaves no bit that nn lacks. -/
def Obligations.RandomIsADrawMasked : Prop :=
  ∀ (x : Nibble) (nn : Byte) (s : State), ∃ t, exec (.rnd x nn) s = .next t ∧
    (∀ k, (getV t x).getLsbD k = ((Config.draw s.draws).getLsbD k && nn.getLsbD k)) ∧
    t.draws = s.draws + 1 ∧ regsUnchangedBut [x] s t ∧ pcMoved 2 s t ∧
    unchangedBut [.regs, .pc, .draws] s t

/-! ## The index register and memory transfers (42_index_memory.md) -/

/-- R200, R201, R203: no flag, and I is kept to 16 bits, never to 12. -/
def Obligations.IndexRegisterWrites : Prop :=
  ∀ (nnn : Addr12) (x : Nibble) (s : State),
    (∃ t, exec (.ldI nnn) s = .next t ∧ t.i.toNat = nnn.toNat ∧ pcMoved 2 s t ∧
      unchangedBut [.index, .pc] s t) ∧
    (∃ t, exec (.addI x) s = .next t ∧ t.i.toNat = (s.i.toNat + (getV s x).toNat) % 65536 ∧
      pcMoved 2 s t ∧ unchangedBut [.index, .pc] s t) ∧
    (∃ t, exec (.ldF x) s = .next t ∧ t.i.toNat = 0x050 + (getV s x).toNat * 5 ∧ pcMoved 2 s t ∧
      unchangedBut [.index, .pc] s t)

/-- R204: hundreds, tens and ones at I, I + 1, I + 2, I kept; out of range, DataBounds for the least such
address and no byte written. The digit order is the spec's own (D22: log entry 7). -/
def Obligations.BcdStoresThreeDigits : Prop :=
  ∀ (x : Nibble) (s : State),
    (s.i.toNat + 2 < 0x1000 → ∃ t, exec (.ldB x) s = .next t ∧
      (byteAt t s.i.toNat).toNat = (getV s x).toNat / 100 ∧
      (byteAt t (s.i.toNat + 1)).toNat = (getV s x).toNat / 10 % 10 ∧
      (byteAt t (s.i.toNat + 2)).toNat = (getV s x).toNat % 10 ∧
      memUnchangedOutside s.i.toNat 3 s t ∧ pcMoved 2 s t ∧ unchangedBut [.mem, .pc] s t) ∧
    (0x1000 ≤ s.i.toNat + 2 → ∃ t, exec (.ldB x) s = .next t ∧
      faultedAs .dataBounds (max s.i.toNat 0x1000) s t)

/-- R205: V0 to Vx at I, I + 1, ..., I kept; out of range, DataBounds for the least such address and no byte
written. -/
def Obligations.StoreWritesTheRegisters : Prop :=
  ∀ (x : Nibble) (s : State),
    (s.i.toNat + x.toNat < 0x1000 → ∃ t, exec (.storeRegs x) s = .next t ∧
      (∀ r : Nibble, r.toNat ≤ x.toNat → byteAt t (s.i.toNat + r.toNat) = getV s r) ∧
      memUnchangedOutside s.i.toNat (x.toNat + 1) s t ∧ pcMoved 2 s t ∧ unchangedBut [.mem, .pc] s t) ∧
    (0x1000 ≤ s.i.toNat + x.toNat → ∃ t, exec (.storeRegs x) s = .next t ∧
      faultedAs .dataBounds (max s.i.toNat 0x1000) s t)

/-- R206: V0 to Vx from I, I + 1, ..., and I one past the last byte read; out of range, DataBounds for the
least such address and no register written. -/
def Obligations.LoadReadsTheRegisters : Prop :=
  ∀ (x : Nibble) (s : State),
    (s.i.toNat + x.toNat < 0x1000 → ∃ t, exec (.loadRegs x) s = .next t ∧
      (∀ r : Nibble, getV t r = if r.toNat ≤ x.toNat then byteAt s (s.i.toNat + r.toNat) else getV s r) ∧
      t.i.toNat = (s.i.toNat + x.toNat + 1) % 65536 ∧ pcMoved 2 s t ∧
      unchangedBut [.regs, .index, .pc] s t) ∧
    (0x1000 ≤ s.i.toNat + x.toNat → ∃ t, exec (.loadRegs x) s = .next t ∧
      faultedAs .dataBounds (max s.i.toNat 0x1000) s t)

/-- R15, R76, R77: a byte written is read back at its address, every other address reads as before, and an
address at or above 0x1000 raises DataBounds both ways. -/
def Obligations.ByteAccessesAreBoundedAndReadBack : Prop :=
  ∀ (s : State) (a c : Nat) (b : Byte),
    (a < 0x1000 → ∃ t, memWrite s a b = .ok t ∧ unchangedBut [.mem] s t ∧
      (c < 0x1000 → memRead t c = .ok (if c = a then b else byteAt s c))) ∧
    (0x1000 ≤ a → memWrite s a b = .error ⟨.dataBounds, BitVec.ofNat 16 a⟩ ∧
      memRead s a = .error ⟨.dataBounds, BitVec.ofNat 16 a⟩)

/-- R87 (derived in the spec): a fetch sees the bytes an earlier store put at PC. -/
def Obligations.FetchSeesEarlierStores : Prop :=
  ∀ (s t u : State) (hi lo : Byte), memWrite s s.pc.toNat hi = .ok t →
    memWrite t (s.pc.toNat + 1) lo = .ok u → fetch u = .ok [hi, lo]

/-! ## The framebuffer (43_display.md) -/

/-- R220, R221. -/
def Obligations.ClsClearsEveryCell : Prop :=
  ∀ s : State, ∃ t, exec .cls s = .next t ∧ (∀ idx, idx < 2048 → fbCell t.fb idx = false) ∧
    t.redraw = true ∧ pcMoved 2 s t ∧ unchangedBut [.framebuffer, .redraw, .pc] s t

/-- R222, R223, for each collision test: the cell of row r and column c of the sprite, coordinates wrapped and
bit 7 leftmost (D3: log entry 7), is XORed with its bit of M[I + r] (D2); every other cell is kept; VF is 1 if
a visited cell collides as the framebuffer stood before, else 0; REDRAW is set (D5), I is kept. Out of range,
DataBounds for the least such address and nothing changes. `exec` uses the default test (D4: log entry 5). -/
def Obligations.DrwXorsTheSprite : Prop :=
  (∀ (x y n : Nibble) (s : State),
    exec (.drw x y n) s = settle (encode (.drw x y n)) s (drawWith .anyLitPixel x y n s)) ∧
  ∀ (mode : Config.DrwCollision) (x y n : Nibble) (s : State),
    (n.toNat = 0 ∨ s.i.toNat + n.toNat ≤ 0x1000 → ∃ t, drawWith mode x y n s = .ok t ∧
      (∀ r c, r < n.toNat → c < 8 →
        fbCell t.fb (((getV s y).toNat + r) % 32 * 64 + ((getV s x).toNat + c) % 64) =
          (fbCell s.fb (((getV s y).toNat + r) % 32 * 64 + ((getV s x).toNat + c) % 64) ^^
            (byteAt s (s.i.toNat + r)).getLsbD (7 - c))) ∧
      (∀ idx, idx < 2048 →
        (∀ r c, r < n.toNat → c < 8 →
          ((getV s y).toNat + r) % 32 * 64 + ((getV s x).toNat + c) % 64 ≠ idx) →
        fbCell t.fb idx = fbCell s.fb idx) ∧
      ((∃ r c, r < n.toNat ∧ c < 8 ∧
          fbCell s.fb (((getV s y).toNat + r) % 32 * 64 + ((getV s x).toNat + c) % 64) = true ∧
          (mode = .setBitsOnly → (byteAt s (s.i.toNat + r)).getLsbD (7 - c) = true)) →
        getV t 0xF = 1) ∧
      ((¬∃ r c, r < n.toNat ∧ c < 8 ∧
          fbCell s.fb (((getV s y).toNat + r) % 32 * 64 + ((getV s x).toNat + c) % 64) = true ∧
          (mode = .setBitsOnly → (byteAt s (s.i.toNat + r)).getLsbD (7 - c) = true)) →
        getV t 0xF = 0) ∧
      t.redraw = true ∧ regsUnchangedBut [0xF] s t ∧ pcMoved 2 s t ∧
      unchangedBut [.framebuffer, .redraw, .regs, .pc] s t) ∧
    (0 < n.toNat → 0x1000 < s.i.toNat + n.toNat →
      ∃ r, drawWith mode x y n s = .error r ∧
        faultedAs .dataBounds (max s.i.toNat 0x1000) s
          (takeFault s (encode (.drw x y n)) r))

/-- R222, R224: DRW itself, with the collision test of the default: VF is 1 exactly when a visited cell was
lit, and the instruction completes whenever its rows are in memory, n = 0 included. -/
def Obligations.DrwCompletesAndReportsLitCells : Prop :=
  ∀ (x y n : Nibble) (s : State), n.toNat = 0 ∨ s.i.toNat + n.toNat ≤ 0x1000 →
    ∃ t, exec (.drw x y n) s = .next t ∧ t.redraw = true ∧ t.fault = s.fault ∧ t.i = s.i ∧ pcMoved 2 s t ∧
      ((∃ r c, r < n.toNat ∧ c < 8 ∧ fbCell s.fb (spriteCell (getV s x) (getV s y) r c) = true) →
        getV t 0xF = 1) ∧
      ((∀ r c, r < n.toNat → c < 8 → fbCell s.fb (spriteCell (getV s x) (getV s y) r c) = false) →
        getV t 0xF = 0)

/-- R222's corner case: the same sprite drawn twice at the same place restores the framebuffer. The
coordinates are not in VF, which the first draw writes. -/
def Obligations.DrawingTwiceRestoresTheFramebuffer : Prop :=
  ∀ (x y n : Nibble) (s t : State), x ≠ 0xF → y ≠ 0xF → (n.toNat = 0 ∨ s.i.toNat + n.toNat ≤ 0x1000) →
    exec (.drw x y n) s = .next t →
    ∃ u, exec (.drw x y n) t = .next u ∧ ∀ idx, idx < 2048 → fbCell u.fb idx = fbCell s.fb idx

/-! ## Timers and the key latch (44_timers_input.md) -/

/-- R240, R241: the skip reads the latch as it stands; with Vx above 15 the instruction faults (D16). -/
def Obligations.KeySkipsReadTheLatch : Prop :=
  ∀ (x : Nibble) (s : State),
    ((getV s x).toNat ≤ 0xF →
      (∃ t, exec (.skp x) s = .next t ∧
        pcMoved (if keyAt s (getV s x).toNat = true then 4 else 2) s t ∧ unchangedBut [.pc] s t) ∧
      (∃ t, exec (.sknp x) s = .next t ∧
        pcMoved (if keyAt s (getV s x).toNat = true then 2 else 4) s t ∧ unchangedBut [.pc] s t)) ∧
    (0xF < (getV s x).toNat →
      (∃ t, exec (.skp x) s = .next t ∧
        faultedAs .keyIndex (getV s x).toNat s t) ∧
      (∃ t, exec (.sknp x) s = .next t ∧
        faultedAs .keyIndex (getV s x).toNat s t))

/-- R242, R244, R245: the execute phase of the timer moves, before the step's tick. -/
def Obligations.TimerMoves : Prop :=
  ∀ (x : Nibble) (s : State),
    (∃ t, exec (.ldVxDt x) s = .next t ∧ getV t x = s.dt ∧ regsUnchangedBut [x] s t ∧ pcMoved 2 s t ∧
      unchangedBut [.regs, .pc] s t) ∧
    (∃ t, exec (.ldDtVx x) s = .next t ∧ t.dt = getV s x ∧ pcMoved 2 s t ∧
      unchangedBut [.delay, .pc] s t) ∧
    (∃ t, exec (.ldStVx x) s = .next t ∧ t.st = getV s x ∧ pcMoved 2 s t ∧
      unchangedBut [.sound, .pc] s t)

/-- R243: Fx0A takes the lowest pressed key and advances; with no key pressed it changes nothing. -/
def Obligations.KeyWaitTakesTheLowestKey : Prop :=
  ∀ (x : Nibble) (s : State),
    (∀ k, k < 16 → keyAt s k = true → (∀ j, j < k → keyAt s j = false) →
      ∃ t, exec (.ldVxK x) s = .next t ∧ (getV t x).toNat = k ∧ regsUnchangedBut [x] s t ∧ pcMoved 2 s t ∧
        unchangedBut [.regs, .pc] s t) ∧
    ((∀ k, k < 16 → keyAt s k = false) → exec (.ldVxK x) s = .next s)

/-! ## The whole machine -/

/-- R16, R273: an instruction either leaves the fault fields alone or does nothing but fault entry. That the
opcode recorded is `encode i` is the model's inference (log entry 8, DEDUCED). What an instruction that leaves
them alone does is said by its own statement. -/
def Obligations.InstructionKeepsTheFaultFieldsOrOnlyTakesAFault : Prop :=
  ∀ (i : Instr) (s t : State), exec i s = .next t →
    (t.fault = s.fault ∧ t.faultPc = s.faultPc ∧ t.faultOp = s.faultOp ∧ t.faultAddr = s.faultAddr) ∨
      ∃ r, t = takeFault s (encode i) r

/-- R270's table, its rows 2 to 5: which instruction raises which fault, when, and with which FAULT_ADDR. -/
def Obligations.FaultsAreRaisedOnlyAsTabled : Prop :=
  ∀ (i : Instr) (s t : State) (k : FaultKind), s.fault = none → exec i s = .next t → t.fault = some k →
    match k with
    | .fetchBounds => False
    | .dataBounds => t.faultAddr.toNat = max s.i.toNat 0x1000 ∧
        ((∃ x y n, i = .drw x y n ∧ 0 < n.toNat ∧ 0x1000 < s.i.toNat + n.toNat) ∨
          (∃ x, i = .ldB x ∧ 0x1000 < s.i.toNat + 3) ∨
          (∃ x, i = .storeRegs x ∧ 0x1000 < s.i.toNat + x.toNat + 1) ∨
          (∃ x, i = .loadRegs x ∧ 0x1000 < s.i.toNat + x.toNat + 1))
    | .stackOverflow => t.faultAddr = 0 ∧ s.sp.val = 16 ∧ ∃ nnn, i = .call nnn
    | .stackUnderflow => t.faultAddr = 0 ∧ s.sp.val = 0 ∧ i = .ret
    | .keyIndex => ∃ x, (i = .skp x ∨ i = .sknp x) ∧ 15 < (getV s x).toNat ∧
        t.faultAddr.toNat = (getV s x).toNat

/-- R42: no instruction but CALL and RET reads or writes SP or a stack slot: with another stack under it, such
an instruction does the same and leaves that stack as it is. -/
def Obligations.OnlyCallAndRetTouchTheStack : Prop :=
  ∀ (i : Instr) (s t : State) (sp : Fin 17) (stack : Vector Word 16), (∀ nnn, i ≠ .call nnn) → i ≠ .ret →
    exec i s = .next t → exec i { s with sp := sp, stack := stack } = .next { t with sp := sp, stack := stack }

/-- R44, R47, R49: no instruction reads ST, REDRAW or the fault fields. With other values of them, every
instruction completes and does the same to everything else; and it either keeps ST in both runs or leaves the
same ST in both, and so for REDRAW and for the fault fields, so that no new value of them is made from an old
one. -/
def Obligations.NoInstructionReadsSoundTimerRedrawOrFaultFields : Prop :=
  ∀ (i : Instr) (s t r : State), exec i s = .next t →
    r = { s with st := r.st, redraw := r.redraw, fault := r.fault, faultPc := r.faultPc,
                 faultOp := r.faultOp, faultAddr := r.faultAddr } →
    ∃ u, exec i r = .next u ∧ unchangedBut [.sound, .redraw, .faults] t u ∧
      (Part.sound.same s t ∧ Part.sound.same r u ∨ Part.sound.same t u) ∧
      (Part.redraw.same s t ∧ Part.redraw.same r u ∨ Part.redraw.same t u) ∧
      (Part.faults.same s t ∧ Part.faults.same r u ∨ Part.faults.same t u)

/-- R32, R33, R36, R46, R49, R72, R270: which instructions can write each piece of the state, and for PC what
they write. PC is as R36 lists unless a fault is raised, and then it is kept. The last clause but one is about
the model's own counter of draws (log entry 6, DESIGN CHOICE). -/
def Obligations.WritersOfEachPieceOfState : Prop :=
  ∀ (i : Instr) (s t : State), exec i s = .next t →
    (∀ r, ¬mayWriteV i s r → getV t r = getV s r) ∧
    (t.pc = s.pc ∨ pcUpdated i s t) ∧
    (s.fault = none → if t.fault = none then pcUpdated i s t else t.pc = s.pc) ∧
    (mayFault i = false → Part.faults.same s t) ∧
    ((∀ nnn, i ≠ .ldI nnn) → (∀ x, i ≠ .addI x ∧ i ≠ .ldF x ∧ i ≠ .loadRegs x) → Part.index.same s t) ∧
    ((∀ nnn, i ≠ .call nnn) → i ≠ .ret → Part.stack.same s t) ∧
    ((∀ x, i ≠ .ldDtVx x) → Part.delay.same s t) ∧
    ((∀ x, i ≠ .ldStVx x) → Part.sound.same s t) ∧
    (i ≠ .cls → (∀ x y n, i ≠ .drw x y n) → Part.framebuffer.same s t ∧ Part.redraw.same s t) ∧
    ((∀ x, i ≠ .ldB x ∧ i ≠ .storeRegs x) → Part.mem.same s t) ∧
    ((∀ x nn, i ≠ .rnd x nn) → Part.draws.same s t) ∧
    Part.keys.same s t

/-- R45, R256: no step writes the key latch. -/
def Obligations.StepsNeverWriteTheKeyLatch : Prop :=
  ∀ s t : State, step s = .next t → ∀ k, keyAt t k = keyAt s k

/-- The invariant at reset. -/
def Obligations.InvariantHoldsAtReset : Prop := Inv State.reset

/-- Every step keeps the invariant: memory stays in its canonical form, PC stays at or below 0x10FE with every
stack slot at or below 0x0FFE (R37, derived in the spec), and a recorded fault keeps saying what raised it
(R270, R273). -/
def Obligations.StepKeepsTheInvariant : Prop :=
  ∀ s t : State, Inv s → step s = .next t → Inv t

/-- R21, R290: so does every action of the host, in any state and any order. -/
def Obligations.HostActionsKeepTheInvariant : Prop :=
  ∀ (o : HostOp) (s t : State) (r : HostResult), Inv s → hostAct o s = .next (t, r) → Inv t

/-! ## The host interface (20_memory.md, 60_exceptions.md) -/

/-- R82, R83: a program of at most 3584 bytes stands at 0x200 and nothing else changes; a longer one is
refused whole. -/
def Obligations.LoadProgramCopiesAllOrNothing : Prop :=
  ∀ (bytes : List Byte) (s : State),
    (bytes.length ≤ 3584 → ∃ t, hostAct (.loadProgram bytes) s = .next (t, .ok) ∧
      (∀ k, k < bytes.length → byteAt t (0x200 + k) = bytes.getD k 0) ∧
      memUnchangedOutside 0x200 bytes.length s t ∧ unchangedBut [.mem] s t) ∧
    (3584 < bytes.length → hostAct (.loadProgram bytes) s = .next (s, .loadError))

/-- R292: one slot of the latch is written, or the operation is refused. -/
def Obligations.SetKeyWritesOneSlot : Prop :=
  ∀ (k : Nat) (pressed : Bool) (s : State),
    (k ≤ 15 → ∃ t, hostAct (.setKey k pressed) s = .next (t, .ok) ∧
      (∀ j, keyAt t j = if j = k then pressed else keyAt s j) ∧ unchangedBut [.keys] s t) ∧
    (15 < k → hostAct (.setKey k pressed) s = .next (s, .rejected))

/-- R293, R294, R295, R297: the reads change nothing and return what they name, the framebuffer row by row;
ackRedraw clears REDRAW alone. That REDRAW comes with debugRead and not beside the framebuffer's cells is the
model's choice between the two R294 names (log entry 25, DESIGN CHOICE). -/
def Obligations.HostReadsAndAcknowledges : Prop :=
  ∀ s : State,
    (∃ cells, hostAct .readFramebuffer s = .next (s, .framebuffer cells) ∧ cells.length = 2048 ∧
      ∀ x y, x < 64 → y < 32 → cells[y * 64 + x]? = some (fbCell s.fb (y * 64 + x))) ∧
    hostAct .readSoundTimer s = .next (s, .soundTimer s.st) ∧
    hostAct .debugRead s = .next (s, .state s) ∧
    (∃ t, hostAct .ackRedraw s = .next (t, .ok) ∧ t.redraw = false ∧ unchangedBut [.redraw] s t)

/-- R296: the host's reset puts every piece of the spec's state at its reset value, from any state; the model's
own counter of draws goes on (log entry 6). -/
def Obligations.HostResetRestoresTheResetState : Prop :=
  ∀ s : State, ∃ t, hostAct .reset s = .next (t, .ok) ∧ unchangedBut [.draws] State.reset t ∧
    t.draws = s.draws

/-- R275, R272: of the host's operations only reset clears a fault, its record included. -/
def Obligations.OnlyResetClearsAFault : Prop :=
  ∀ (o : HostOp) (s t : State) (r : HostResult), s.fault ≠ none → o ≠ .reset →
    hostAct o s = .next (t, r) → Part.faults.same s t
end

