-- ==== Sys2Proof/Laws/Encoding.lean ====
section
/-! SUPPORT. The bit-level laws of the encoding: what a row's mask leaves of an opcode, and the fields of a
packed opcode. -/

namespace Sys2Proof

/-- The family nibble of an opcode, bits 15-12 (R101). -/
def familyOf (op : Word) : Nibble := op.extractLsb' 12 4

/-- The mask 0xF000 leaves the family nibble (R107). -/
theorem and_F000 (op : Word) : op &&& 0xF000 = familyOf op ++ (0 : BitVec 12) := by
  ext i hi
  unfold familyOf
  simp only [BitVec.getElem_and, BitVec.getElem_append, BitVec.getElem_extractLsb']
  interval_cases i <;> simp

/-- The mask 0xF00F leaves the family nibble and n (R107). -/
theorem and_F00F (op : Word) :
    op &&& 0xF00F = (familyOf op ++ (0 : BitVec 8) : BitVec 12) ++ fieldN op := by
  ext i hi
  unfold familyOf fieldN
  simp only [BitVec.getElem_and, BitVec.getElem_append, BitVec.getElem_extractLsb']
  interval_cases i <;> simp

/-- The mask 0xF0FF leaves the family nibble and nn (R107). -/
theorem and_F0FF (op : Word) :
    op &&& 0xF0FF = (familyOf op ++ (0 : BitVec 4) : BitVec 8) ++ fieldNN op := by
  ext i hi
  unfold familyOf fieldNN
  simp only [BitVec.getElem_and, BitVec.getElem_append, BitVec.getElem_extractLsb']
  interval_cases i <;> simp

/-- The mask 0xFFFF leaves the whole opcode (R107). -/
theorem and_FFFF (op : Word) : op &&& 0xFFFF = op := BitVec.and_allOnes

/-! ## The fields of a packed opcode -/

@[simp] theorem familyOf_packNNN (p : Nibble) (nnn : Addr12) : familyOf (packNNN p nnn) = p := by
  ext i hi; unfold familyOf packNNN
  simp only [BitVec.getElem_extractLsb', BitVec.getLsbD_append]; interval_cases i <;> simp

@[simp] theorem fieldNNN_packNNN (p : Nibble) (nnn : Addr12) : fieldNNN (packNNN p nnn) = nnn := by
  ext i hi; unfold fieldNNN packNNN
  simp only [BitVec.getElem_extractLsb', BitVec.getLsbD_append]; interval_cases i <;> simp

@[simp] theorem familyOf_packXNN (p x : Nibble) (nn : Byte) : familyOf (packXNN p x nn) = p := by
  ext i hi; unfold familyOf packXNN
  simp only [BitVec.getElem_extractLsb', BitVec.getLsbD_append]; interval_cases i <;> simp

@[simp] theorem fieldX_packXNN (p x : Nibble) (nn : Byte) : fieldX (packXNN p x nn) = x := by
  ext i hi; unfold fieldX packXNN
  simp only [BitVec.getElem_extractLsb', BitVec.getLsbD_append]; interval_cases i <;> simp

@[simp] theorem fieldNN_packXNN (p x : Nibble) (nn : Byte) : fieldNN (packXNN p x nn) = nn := by
  ext i hi; unfold fieldNN packXNN
  simp only [BitVec.getElem_extractLsb', BitVec.getLsbD_append]; interval_cases i <;> simp

@[simp] theorem familyOf_packXYN (p x y n : Nibble) : familyOf (packXYN p x y n) = p := by
  ext i hi; unfold familyOf packXYN
  simp only [BitVec.getElem_extractLsb', BitVec.getLsbD_append]; interval_cases i <;> simp

@[simp] theorem fieldX_packXYN (p x y n : Nibble) : fieldX (packXYN p x y n) = x := by
  ext i hi; unfold fieldX packXYN
  simp only [BitVec.getElem_extractLsb', BitVec.getLsbD_append]; interval_cases i <;> simp

@[simp] theorem fieldY_packXYN (p x y n : Nibble) : fieldY (packXYN p x y n) = y := by
  ext i hi; unfold fieldY packXYN
  simp only [BitVec.getElem_extractLsb', BitVec.getLsbD_append]; interval_cases i <;> simp

@[simp] theorem fieldN_packXYN (p x y n : Nibble) : fieldN (packXYN p x y n) = n := by
  ext i hi; unfold fieldN packXYN
  simp only [BitVec.getElem_extractLsb', BitVec.getLsbD_append]; interval_cases i <;> simp

/-! ## An opcode is its fields, packed -/

theorem packNNN_fields (op : Word) : packNNN (familyOf op) (fieldNNN op) = op := by
  refine BitVec.eq_of_getLsbD_eq fun i hi => ?_
  unfold familyOf fieldNNN packNNN
  simp only [BitVec.getLsbD_append, BitVec.getLsbD_extractLsb']
  interval_cases i <;> simp

theorem packXNN_fields (op : Word) : packXNN (familyOf op) (fieldX op) (fieldNN op) = op := by
  refine BitVec.eq_of_getLsbD_eq fun i hi => ?_
  unfold familyOf fieldX fieldNN packXNN
  simp only [BitVec.getLsbD_append, BitVec.getLsbD_extractLsb']
  interval_cases i <;> simp

theorem packXYN_fields (op : Word) :
    packXYN (familyOf op) (fieldX op) (fieldY op) (fieldN op) = op := by
  refine BitVec.eq_of_getLsbD_eq fun i hi => ?_
  unfold familyOf fieldX fieldY fieldN packXYN
  simp only [BitVec.getLsbD_append, BitVec.getLsbD_extractLsb']
  interval_cases i <;> simp

/-- The byte order of R73: the two bytes of an opcode make that opcode. -/
@[simp] theorem wordOfBytes_bytes (op : Word) : wordOfBytes (highByte op) (lowByte op) = op := by
  refine BitVec.eq_of_getLsbD_eq fun i hi => ?_
  unfold wordOfBytes highByte lowByte
  simp only [BitVec.getLsbD_append, BitVec.getLsbD_extractLsb']
  interval_cases i <;> simp

/-! ## Which opcodes a row accepts, by its fields -/

theorem append_eq_iff {m n : Nat} (a c : BitVec m) (b d : BitVec n) :
    a ++ b = c ++ d ↔ a = c ∧ b = d := by
  constructor
  · intro h
    have hl := congrArg (fun w => w.extractLsb' n m) h
    have hr := congrArg (fun w => w.extractLsb' 0 n) h
    simp only [BitVec.extractLsb'_append_eq_left, BitVec.extractLsb'_append_eq_right] at hl hr
    exact ⟨hl, hr⟩
  · rintro ⟨rfl, rfl⟩; rfl

theorem accepts_F000 (w : Word) (f : Form) (op : Word) (h : familyOf w ++ (0 : BitVec 12) = w) :
    OpcodeRow.accepts ⟨0xF000#16, w, f⟩ op = (familyOf op == familyOf w) := by
  show ((op &&& 0xF000) == w) = _
  conv_lhs => rw [and_F000, ← h]
  rw [Bool.eq_iff_iff, beq_iff_eq, append_eq_iff]
  simp

theorem accepts_F00F (w : Word) (f : Form) (op : Word)
    (h : (familyOf w ++ (0 : BitVec 8) : BitVec 12) ++ fieldN w = w) :
    OpcodeRow.accepts ⟨0xF00F#16, w, f⟩ op = (familyOf op == familyOf w && fieldN op == fieldN w) := by
  show ((op &&& 0xF00F) == w) = _
  conv_lhs => rw [and_F00F, ← h]
  rw [Bool.eq_iff_iff, beq_iff_eq, append_eq_iff, append_eq_iff]
  simp

theorem accepts_F0FF (w : Word) (f : Form) (op : Word)
    (h : (familyOf w ++ (0 : BitVec 4) : BitVec 8) ++ fieldNN w = w) :
    OpcodeRow.accepts ⟨0xF0FF#16, w, f⟩ op = (familyOf op == familyOf w && fieldNN op == fieldNN w) := by
  show ((op &&& 0xF0FF) == w) = _
  conv_lhs => rw [and_F0FF, ← h]
  rw [Bool.eq_iff_iff, beq_iff_eq, append_eq_iff, append_eq_iff]
  simp

theorem accepts_FFFF (w : Word) (f : Form) (op : Word) :
    OpcodeRow.accepts ⟨0xFFFF#16, w, f⟩ op = (familyOf op == familyOf w && fieldNNN op == fieldNNN w) := by
  show ((op &&& 0xFFFF) == w) = _
  rw [and_FFFF, Bool.eq_iff_iff, beq_iff_eq]
  conv_lhs => rw [← packNNN_fields op, ← packNNN_fields w]
  unfold packNNN
  rw [append_eq_iff]
  simp

end Sys2Proof
end

