-- ==== Sys2Proof/Laws/State.lean ====
section
/-! SUPPORT. One lemma per field per update of the state, all true by unfolding once: what each named operation
writes and what it leaves; and the same for the reads of a register, a byte, a slot and a key. -/

namespace Sys2Proof.Machine

variable (s : State)

/-! ### setMem -/

@[simp] theorem setMem_v (m : Memory) : (setMem s m).v = s.v := rfl
@[simp] theorem setMem_i (m : Memory) : (setMem s m).i = s.i := rfl
@[simp] theorem setMem_pc (m : Memory) : (setMem s m).pc = s.pc := rfl
@[simp] theorem setMem_sp (m : Memory) : (setMem s m).sp = s.sp := rfl
@[simp] theorem setMem_stack (m : Memory) : (setMem s m).stack = s.stack := rfl
@[simp] theorem setMem_dt (m : Memory) : (setMem s m).dt = s.dt := rfl
@[simp] theorem setMem_st (m : Memory) : (setMem s m).st = s.st := rfl
@[simp] theorem setMem_keys (m : Memory) : (setMem s m).keys = s.keys := rfl
@[simp] theorem setMem_fb (m : Memory) : (setMem s m).fb = s.fb := rfl
@[simp] theorem setMem_redraw (m : Memory) : (setMem s m).redraw = s.redraw := rfl
@[simp] theorem setMem_fault (m : Memory) : (setMem s m).fault = s.fault := rfl
@[simp] theorem setMem_faultPc (m : Memory) : (setMem s m).faultPc = s.faultPc := rfl
@[simp] theorem setMem_faultOp (m : Memory) : (setMem s m).faultOp = s.faultOp := rfl
@[simp] theorem setMem_faultAddr (m : Memory) : (setMem s m).faultAddr = s.faultAddr := rfl
@[simp] theorem setMem_mem (m : Memory) : (setMem s m).mem = m := rfl
@[simp] theorem setMem_draws (m : Memory) : (setMem s m).draws = s.draws := rfl
@[simp] theorem getV_setMem (m : Memory) (r : Nibble) : getV (setMem s m) r = getV s r := rfl
@[simp] theorem slot_setMem (m : Memory) (k : Nat) : slot (setMem s m) k = slot s k := rfl
@[simp] theorem keyAt_setMem (m : Memory) (k : Nat) : keyAt (setMem s m) k = keyAt s k := rfl

/-! ### setV -/

@[simp] theorem setV_v (x : Nibble) (b : Byte) : (setV s x b).v = s.v.set x.toNat b x.isLt := rfl
@[simp] theorem setV_i (x : Nibble) (b : Byte) : (setV s x b).i = s.i := rfl
@[simp] theorem setV_pc (x : Nibble) (b : Byte) : (setV s x b).pc = s.pc := rfl
@[simp] theorem setV_sp (x : Nibble) (b : Byte) : (setV s x b).sp = s.sp := rfl
@[simp] theorem setV_stack (x : Nibble) (b : Byte) : (setV s x b).stack = s.stack := rfl
@[simp] theorem setV_dt (x : Nibble) (b : Byte) : (setV s x b).dt = s.dt := rfl
@[simp] theorem setV_st (x : Nibble) (b : Byte) : (setV s x b).st = s.st := rfl
@[simp] theorem setV_keys (x : Nibble) (b : Byte) : (setV s x b).keys = s.keys := rfl
@[simp] theorem setV_fb (x : Nibble) (b : Byte) : (setV s x b).fb = s.fb := rfl
@[simp] theorem setV_redraw (x : Nibble) (b : Byte) : (setV s x b).redraw = s.redraw := rfl
@[simp] theorem setV_fault (x : Nibble) (b : Byte) : (setV s x b).fault = s.fault := rfl
@[simp] theorem setV_faultPc (x : Nibble) (b : Byte) : (setV s x b).faultPc = s.faultPc := rfl
@[simp] theorem setV_faultOp (x : Nibble) (b : Byte) : (setV s x b).faultOp = s.faultOp := rfl
@[simp] theorem setV_faultAddr (x : Nibble) (b : Byte) : (setV s x b).faultAddr = s.faultAddr := rfl
@[simp] theorem setV_mem (x : Nibble) (b : Byte) : (setV s x b).mem = s.mem := rfl
@[simp] theorem setV_draws (x : Nibble) (b : Byte) : (setV s x b).draws = s.draws := rfl
@[simp] theorem byteAt_setV (x : Nibble) (b : Byte) (a : Nat) : byteAt (setV s x b) a = byteAt s a := rfl
@[simp] theorem slot_setV (x : Nibble) (b : Byte) (k : Nat) : slot (setV s x b) k = slot s k := rfl
@[simp] theorem keyAt_setV (x : Nibble) (b : Byte) (k : Nat) : keyAt (setV s x b) k = keyAt s k := rfl

/-! ### setI -/

@[simp] theorem setI_v (w : Word) : (setI s w).v = s.v := rfl
@[simp] theorem setI_i (w : Word) : (setI s w).i = w := rfl
@[simp] theorem setI_pc (w : Word) : (setI s w).pc = s.pc := rfl
@[simp] theorem setI_sp (w : Word) : (setI s w).sp = s.sp := rfl
@[simp] theorem setI_stack (w : Word) : (setI s w).stack = s.stack := rfl
@[simp] theorem setI_dt (w : Word) : (setI s w).dt = s.dt := rfl
@[simp] theorem setI_st (w : Word) : (setI s w).st = s.st := rfl
@[simp] theorem setI_keys (w : Word) : (setI s w).keys = s.keys := rfl
@[simp] theorem setI_fb (w : Word) : (setI s w).fb = s.fb := rfl
@[simp] theorem setI_redraw (w : Word) : (setI s w).redraw = s.redraw := rfl
@[simp] theorem setI_fault (w : Word) : (setI s w).fault = s.fault := rfl
@[simp] theorem setI_faultPc (w : Word) : (setI s w).faultPc = s.faultPc := rfl
@[simp] theorem setI_faultOp (w : Word) : (setI s w).faultOp = s.faultOp := rfl
@[simp] theorem setI_faultAddr (w : Word) : (setI s w).faultAddr = s.faultAddr := rfl
@[simp] theorem setI_mem (w : Word) : (setI s w).mem = s.mem := rfl
@[simp] theorem setI_draws (w : Word) : (setI s w).draws = s.draws := rfl
@[simp] theorem getV_setI (w : Word) (r : Nibble) : getV (setI s w) r = getV s r := rfl
@[simp] theorem byteAt_setI (w : Word) (a : Nat) : byteAt (setI s w) a = byteAt s a := rfl
@[simp] theorem slot_setI (w : Word) (k : Nat) : slot (setI s w) k = slot s k := rfl
@[simp] theorem keyAt_setI (w : Word) (k : Nat) : keyAt (setI s w) k = keyAt s k := rfl

/-! ### setPc -/

@[simp] theorem setPc_v (w : Word) : (setPc s w).v = s.v := rfl
@[simp] theorem setPc_i (w : Word) : (setPc s w).i = s.i := rfl
@[simp] theorem setPc_pc (w : Word) : (setPc s w).pc = w := rfl
@[simp] theorem setPc_sp (w : Word) : (setPc s w).sp = s.sp := rfl
@[simp] theorem setPc_stack (w : Word) : (setPc s w).stack = s.stack := rfl
@[simp] theorem setPc_dt (w : Word) : (setPc s w).dt = s.dt := rfl
@[simp] theorem setPc_st (w : Word) : (setPc s w).st = s.st := rfl
@[simp] theorem setPc_keys (w : Word) : (setPc s w).keys = s.keys := rfl
@[simp] theorem setPc_fb (w : Word) : (setPc s w).fb = s.fb := rfl
@[simp] theorem setPc_redraw (w : Word) : (setPc s w).redraw = s.redraw := rfl
@[simp] theorem setPc_fault (w : Word) : (setPc s w).fault = s.fault := rfl
@[simp] theorem setPc_faultPc (w : Word) : (setPc s w).faultPc = s.faultPc := rfl
@[simp] theorem setPc_faultOp (w : Word) : (setPc s w).faultOp = s.faultOp := rfl
@[simp] theorem setPc_faultAddr (w : Word) : (setPc s w).faultAddr = s.faultAddr := rfl
@[simp] theorem setPc_mem (w : Word) : (setPc s w).mem = s.mem := rfl
@[simp] theorem setPc_draws (w : Word) : (setPc s w).draws = s.draws := rfl
@[simp] theorem getV_setPc (w : Word) (r : Nibble) : getV (setPc s w) r = getV s r := rfl
@[simp] theorem byteAt_setPc (w : Word) (a : Nat) : byteAt (setPc s w) a = byteAt s a := rfl
@[simp] theorem slot_setPc (w : Word) (k : Nat) : slot (setPc s w) k = slot s k := rfl
@[simp] theorem keyAt_setPc (w : Word) (k : Nat) : keyAt (setPc s w) k = keyAt s k := rfl

/-! ### advance -/

@[simp] theorem advance_v : (advance s).v = s.v := rfl
@[simp] theorem advance_i : (advance s).i = s.i := rfl
@[simp] theorem advance_pc : (advance s).pc = s.pc + 2 := rfl
@[simp] theorem advance_sp : (advance s).sp = s.sp := rfl
@[simp] theorem advance_stack : (advance s).stack = s.stack := rfl
@[simp] theorem advance_dt : (advance s).dt = s.dt := rfl
@[simp] theorem advance_st : (advance s).st = s.st := rfl
@[simp] theorem advance_keys : (advance s).keys = s.keys := rfl
@[simp] theorem advance_fb : (advance s).fb = s.fb := rfl
@[simp] theorem advance_redraw : (advance s).redraw = s.redraw := rfl
@[simp] theorem advance_fault : (advance s).fault = s.fault := rfl
@[simp] theorem advance_faultPc : (advance s).faultPc = s.faultPc := rfl
@[simp] theorem advance_faultOp : (advance s).faultOp = s.faultOp := rfl
@[simp] theorem advance_faultAddr : (advance s).faultAddr = s.faultAddr := rfl
@[simp] theorem advance_mem : (advance s).mem = s.mem := rfl
@[simp] theorem advance_draws : (advance s).draws = s.draws := rfl
@[simp] theorem getV_advance (r : Nibble) : getV (advance s) r = getV s r := rfl
@[simp] theorem byteAt_advance (a : Nat) : byteAt (advance s) a = byteAt s a := rfl
@[simp] theorem slot_advance (k : Nat) : slot (advance s) k = slot s k := rfl
@[simp] theorem keyAt_advance (k : Nat) : keyAt (advance s) k = keyAt s k := rfl

/-! ### skipWhen -/

@[simp] theorem skipWhen_v (c : Bool) : (skipWhen c s).v = s.v := rfl
@[simp] theorem skipWhen_i (c : Bool) : (skipWhen c s).i = s.i := rfl
@[simp] theorem skipWhen_pc (c : Bool) : (skipWhen c s).pc = s.pc + if c then 4 else 2 := rfl
@[simp] theorem skipWhen_sp (c : Bool) : (skipWhen c s).sp = s.sp := rfl
@[simp] theorem skipWhen_stack (c : Bool) : (skipWhen c s).stack = s.stack := rfl
@[simp] theorem skipWhen_dt (c : Bool) : (skipWhen c s).dt = s.dt := rfl
@[simp] theorem skipWhen_st (c : Bool) : (skipWhen c s).st = s.st := rfl
@[simp] theorem skipWhen_keys (c : Bool) : (skipWhen c s).keys = s.keys := rfl
@[simp] theorem skipWhen_fb (c : Bool) : (skipWhen c s).fb = s.fb := rfl
@[simp] theorem skipWhen_redraw (c : Bool) : (skipWhen c s).redraw = s.redraw := rfl
@[simp] theorem skipWhen_fault (c : Bool) : (skipWhen c s).fault = s.fault := rfl
@[simp] theorem skipWhen_faultPc (c : Bool) : (skipWhen c s).faultPc = s.faultPc := rfl
@[simp] theorem skipWhen_faultOp (c : Bool) : (skipWhen c s).faultOp = s.faultOp := rfl
@[simp] theorem skipWhen_faultAddr (c : Bool) : (skipWhen c s).faultAddr = s.faultAddr := rfl
@[simp] theorem skipWhen_mem (c : Bool) : (skipWhen c s).mem = s.mem := rfl
@[simp] theorem skipWhen_draws (c : Bool) : (skipWhen c s).draws = s.draws := rfl
@[simp] theorem getV_skipWhen (c : Bool) (r : Nibble) : getV (skipWhen c s) r = getV s r := rfl
@[simp] theorem byteAt_skipWhen (c : Bool) (a : Nat) : byteAt (skipWhen c s) a = byteAt s a := rfl
@[simp] theorem slot_skipWhen (c : Bool) (k : Nat) : slot (skipWhen c s) k = slot s k := rfl
@[simp] theorem keyAt_skipWhen (c : Bool) (k : Nat) : keyAt (skipWhen c s) k = keyAt s k := rfl

/-! ### setDt -/

@[simp] theorem setDt_v (b : Byte) : (setDt s b).v = s.v := rfl
@[simp] theorem setDt_i (b : Byte) : (setDt s b).i = s.i := rfl
@[simp] theorem setDt_pc (b : Byte) : (setDt s b).pc = s.pc := rfl
@[simp] theorem setDt_sp (b : Byte) : (setDt s b).sp = s.sp := rfl
@[simp] theorem setDt_stack (b : Byte) : (setDt s b).stack = s.stack := rfl
@[simp] theorem setDt_dt (b : Byte) : (setDt s b).dt = b := rfl
@[simp] theorem setDt_st (b : Byte) : (setDt s b).st = s.st := rfl
@[simp] theorem setDt_keys (b : Byte) : (setDt s b).keys = s.keys := rfl
@[simp] theorem setDt_fb (b : Byte) : (setDt s b).fb = s.fb := rfl
@[simp] theorem setDt_redraw (b : Byte) : (setDt s b).redraw = s.redraw := rfl
@[simp] theorem setDt_fault (b : Byte) : (setDt s b).fault = s.fault := rfl
@[simp] theorem setDt_faultPc (b : Byte) : (setDt s b).faultPc = s.faultPc := rfl
@[simp] theorem setDt_faultOp (b : Byte) : (setDt s b).faultOp = s.faultOp := rfl
@[simp] theorem setDt_faultAddr (b : Byte) : (setDt s b).faultAddr = s.faultAddr := rfl
@[simp] theorem setDt_mem (b : Byte) : (setDt s b).mem = s.mem := rfl
@[simp] theorem setDt_draws (b : Byte) : (setDt s b).draws = s.draws := rfl
@[simp] theorem getV_setDt (b : Byte) (r : Nibble) : getV (setDt s b) r = getV s r := rfl
@[simp] theorem byteAt_setDt (b : Byte) (a : Nat) : byteAt (setDt s b) a = byteAt s a := rfl
@[simp] theorem slot_setDt (b : Byte) (k : Nat) : slot (setDt s b) k = slot s k := rfl
@[simp] theorem keyAt_setDt (b : Byte) (k : Nat) : keyAt (setDt s b) k = keyAt s k := rfl

/-! ### setSt -/

@[simp] theorem setSt_v (b : Byte) : (setSt s b).v = s.v := rfl
@[simp] theorem setSt_i (b : Byte) : (setSt s b).i = s.i := rfl
@[simp] theorem setSt_pc (b : Byte) : (setSt s b).pc = s.pc := rfl
@[simp] theorem setSt_sp (b : Byte) : (setSt s b).sp = s.sp := rfl
@[simp] theorem setSt_stack (b : Byte) : (setSt s b).stack = s.stack := rfl
@[simp] theorem setSt_dt (b : Byte) : (setSt s b).dt = s.dt := rfl
@[simp] theorem setSt_st (b : Byte) : (setSt s b).st = b := rfl
@[simp] theorem setSt_keys (b : Byte) : (setSt s b).keys = s.keys := rfl
@[simp] theorem setSt_fb (b : Byte) : (setSt s b).fb = s.fb := rfl
@[simp] theorem setSt_redraw (b : Byte) : (setSt s b).redraw = s.redraw := rfl
@[simp] theorem setSt_fault (b : Byte) : (setSt s b).fault = s.fault := rfl
@[simp] theorem setSt_faultPc (b : Byte) : (setSt s b).faultPc = s.faultPc := rfl
@[simp] theorem setSt_faultOp (b : Byte) : (setSt s b).faultOp = s.faultOp := rfl
@[simp] theorem setSt_faultAddr (b : Byte) : (setSt s b).faultAddr = s.faultAddr := rfl
@[simp] theorem setSt_mem (b : Byte) : (setSt s b).mem = s.mem := rfl
@[simp] theorem setSt_draws (b : Byte) : (setSt s b).draws = s.draws := rfl
@[simp] theorem getV_setSt (b : Byte) (r : Nibble) : getV (setSt s b) r = getV s r := rfl
@[simp] theorem byteAt_setSt (b : Byte) (a : Nat) : byteAt (setSt s b) a = byteAt s a := rfl
@[simp] theorem slot_setSt (b : Byte) (k : Nat) : slot (setSt s b) k = slot s k := rfl
@[simp] theorem keyAt_setSt (b : Byte) (k : Nat) : keyAt (setSt s b) k = keyAt s k := rfl

/-! ### setFb -/

@[simp] theorem setFb_v (f : Framebuffer) : (setFb s f).v = s.v := rfl
@[simp] theorem setFb_i (f : Framebuffer) : (setFb s f).i = s.i := rfl
@[simp] theorem setFb_pc (f : Framebuffer) : (setFb s f).pc = s.pc := rfl
@[simp] theorem setFb_sp (f : Framebuffer) : (setFb s f).sp = s.sp := rfl
@[simp] theorem setFb_stack (f : Framebuffer) : (setFb s f).stack = s.stack := rfl
@[simp] theorem setFb_dt (f : Framebuffer) : (setFb s f).dt = s.dt := rfl
@[simp] theorem setFb_st (f : Framebuffer) : (setFb s f).st = s.st := rfl
@[simp] theorem setFb_keys (f : Framebuffer) : (setFb s f).keys = s.keys := rfl
@[simp] theorem setFb_fb (f : Framebuffer) : (setFb s f).fb = f := rfl
@[simp] theorem setFb_redraw (f : Framebuffer) : (setFb s f).redraw = s.redraw := rfl
@[simp] theorem setFb_fault (f : Framebuffer) : (setFb s f).fault = s.fault := rfl
@[simp] theorem setFb_faultPc (f : Framebuffer) : (setFb s f).faultPc = s.faultPc := rfl
@[simp] theorem setFb_faultOp (f : Framebuffer) : (setFb s f).faultOp = s.faultOp := rfl
@[simp] theorem setFb_faultAddr (f : Framebuffer) : (setFb s f).faultAddr = s.faultAddr := rfl
@[simp] theorem setFb_mem (f : Framebuffer) : (setFb s f).mem = s.mem := rfl
@[simp] theorem setFb_draws (f : Framebuffer) : (setFb s f).draws = s.draws := rfl
@[simp] theorem getV_setFb (f : Framebuffer) (r : Nibble) : getV (setFb s f) r = getV s r := rfl
@[simp] theorem byteAt_setFb (f : Framebuffer) (a : Nat) : byteAt (setFb s f) a = byteAt s a := rfl
@[simp] theorem slot_setFb (f : Framebuffer) (k : Nat) : slot (setFb s f) k = slot s k := rfl
@[simp] theorem keyAt_setFb (f : Framebuffer) (k : Nat) : keyAt (setFb s f) k = keyAt s k := rfl

/-! ### setRedraw -/

@[simp] theorem setRedraw_v (b : Bool) : (setRedraw s b).v = s.v := rfl
@[simp] theorem setRedraw_i (b : Bool) : (setRedraw s b).i = s.i := rfl
@[simp] theorem setRedraw_pc (b : Bool) : (setRedraw s b).pc = s.pc := rfl
@[simp] theorem setRedraw_sp (b : Bool) : (setRedraw s b).sp = s.sp := rfl
@[simp] theorem setRedraw_stack (b : Bool) : (setRedraw s b).stack = s.stack := rfl
@[simp] theorem setRedraw_dt (b : Bool) : (setRedraw s b).dt = s.dt := rfl
@[simp] theorem setRedraw_st (b : Bool) : (setRedraw s b).st = s.st := rfl
@[simp] theorem setRedraw_keys (b : Bool) : (setRedraw s b).keys = s.keys := rfl
@[simp] theorem setRedraw_fb (b : Bool) : (setRedraw s b).fb = s.fb := rfl
@[simp] theorem setRedraw_redraw (b : Bool) : (setRedraw s b).redraw = b := rfl
@[simp] theorem setRedraw_fault (b : Bool) : (setRedraw s b).fault = s.fault := rfl
@[simp] theorem setRedraw_faultPc (b : Bool) : (setRedraw s b).faultPc = s.faultPc := rfl
@[simp] theorem setRedraw_faultOp (b : Bool) : (setRedraw s b).faultOp = s.faultOp := rfl
@[simp] theorem setRedraw_faultAddr (b : Bool) : (setRedraw s b).faultAddr = s.faultAddr := rfl
@[simp] theorem setRedraw_mem (b : Bool) : (setRedraw s b).mem = s.mem := rfl
@[simp] theorem setRedraw_draws (b : Bool) : (setRedraw s b).draws = s.draws := rfl
@[simp] theorem getV_setRedraw (b : Bool) (r : Nibble) : getV (setRedraw s b) r = getV s r := rfl
@[simp] theorem byteAt_setRedraw (b : Bool) (a : Nat) : byteAt (setRedraw s b) a = byteAt s a := rfl
@[simp] theorem slot_setRedraw (b : Bool) (k : Nat) : slot (setRedraw s b) k = slot s k := rfl
@[simp] theorem keyAt_setRedraw (b : Bool) (k : Nat) : keyAt (setRedraw s b) k = keyAt s k := rfl

/-! ### setKeyAt -/

@[simp] theorem setKeyAt_v (k : Nat) (p : Bool) : (setKeyAt s k p).v = s.v := rfl
@[simp] theorem setKeyAt_i (k : Nat) (p : Bool) : (setKeyAt s k p).i = s.i := rfl
@[simp] theorem setKeyAt_pc (k : Nat) (p : Bool) : (setKeyAt s k p).pc = s.pc := rfl
@[simp] theorem setKeyAt_sp (k : Nat) (p : Bool) : (setKeyAt s k p).sp = s.sp := rfl
@[simp] theorem setKeyAt_stack (k : Nat) (p : Bool) : (setKeyAt s k p).stack = s.stack := rfl
@[simp] theorem setKeyAt_dt (k : Nat) (p : Bool) : (setKeyAt s k p).dt = s.dt := rfl
@[simp] theorem setKeyAt_st (k : Nat) (p : Bool) : (setKeyAt s k p).st = s.st := rfl
@[simp] theorem setKeyAt_keys (k : Nat) (p : Bool) : (setKeyAt s k p).keys = s.keys.setIfInBounds k p := rfl
@[simp] theorem setKeyAt_fb (k : Nat) (p : Bool) : (setKeyAt s k p).fb = s.fb := rfl
@[simp] theorem setKeyAt_redraw (k : Nat) (p : Bool) : (setKeyAt s k p).redraw = s.redraw := rfl
@[simp] theorem setKeyAt_fault (k : Nat) (p : Bool) : (setKeyAt s k p).fault = s.fault := rfl
@[simp] theorem setKeyAt_faultPc (k : Nat) (p : Bool) : (setKeyAt s k p).faultPc = s.faultPc := rfl
@[simp] theorem setKeyAt_faultOp (k : Nat) (p : Bool) : (setKeyAt s k p).faultOp = s.faultOp := rfl
@[simp] theorem setKeyAt_faultAddr (k : Nat) (p : Bool) : (setKeyAt s k p).faultAddr = s.faultAddr := rfl
@[simp] theorem setKeyAt_mem (k : Nat) (p : Bool) : (setKeyAt s k p).mem = s.mem := rfl
@[simp] theorem setKeyAt_draws (k : Nat) (p : Bool) : (setKeyAt s k p).draws = s.draws := rfl
@[simp] theorem getV_setKeyAt (k : Nat) (p : Bool) (r : Nibble) : getV (setKeyAt s k p) r = getV s r := rfl
@[simp] theorem byteAt_setKeyAt (k : Nat) (p : Bool) (a : Nat) : byteAt (setKeyAt s k p) a = byteAt s a := rfl
@[simp] theorem slot_setKeyAt (k : Nat) (p : Bool) (j : Nat) : slot (setKeyAt s k p) j = slot s j := rfl

/-! ### drawByte -/

@[simp] theorem drawByte_v : ((drawByte s).2).v = s.v := rfl
@[simp] theorem drawByte_i : ((drawByte s).2).i = s.i := rfl
@[simp] theorem drawByte_pc : ((drawByte s).2).pc = s.pc := rfl
@[simp] theorem drawByte_sp : ((drawByte s).2).sp = s.sp := rfl
@[simp] theorem drawByte_stack : ((drawByte s).2).stack = s.stack := rfl
@[simp] theorem drawByte_dt : ((drawByte s).2).dt = s.dt := rfl
@[simp] theorem drawByte_st : ((drawByte s).2).st = s.st := rfl
@[simp] theorem drawByte_keys : ((drawByte s).2).keys = s.keys := rfl
@[simp] theorem drawByte_fb : ((drawByte s).2).fb = s.fb := rfl
@[simp] theorem drawByte_redraw : ((drawByte s).2).redraw = s.redraw := rfl
@[simp] theorem drawByte_fault : ((drawByte s).2).fault = s.fault := rfl
@[simp] theorem drawByte_faultPc : ((drawByte s).2).faultPc = s.faultPc := rfl
@[simp] theorem drawByte_faultOp : ((drawByte s).2).faultOp = s.faultOp := rfl
@[simp] theorem drawByte_faultAddr : ((drawByte s).2).faultAddr = s.faultAddr := rfl
@[simp] theorem drawByte_mem : ((drawByte s).2).mem = s.mem := rfl
@[simp] theorem drawByte_draws : ((drawByte s).2).draws = s.draws + 1 := rfl
@[simp] theorem getV_drawByte (r : Nibble) : getV ((drawByte s).2) r = getV s r := rfl
@[simp] theorem byteAt_drawByte (a : Nat) : byteAt ((drawByte s).2) a = byteAt s a := rfl
@[simp] theorem slot_drawByte (k : Nat) : slot ((drawByte s).2) k = slot s k := rfl
@[simp] theorem keyAt_drawByte (k : Nat) : keyAt ((drawByte s).2) k = keyAt s k := rfl

/-! ### tick -/

@[simp] theorem tick_v : (tick s).v = s.v := rfl
@[simp] theorem tick_i : (tick s).i = s.i := rfl
@[simp] theorem tick_pc : (tick s).pc = s.pc := rfl
@[simp] theorem tick_sp : (tick s).sp = s.sp := rfl
@[simp] theorem tick_stack : (tick s).stack = s.stack := rfl
@[simp] theorem tick_dt : (tick s).dt = countDown s.dt := rfl
@[simp] theorem tick_st : (tick s).st = countDown s.st := rfl
@[simp] theorem tick_keys : (tick s).keys = s.keys := rfl
@[simp] theorem tick_fb : (tick s).fb = s.fb := rfl
@[simp] theorem tick_redraw : (tick s).redraw = s.redraw := rfl
@[simp] theorem tick_fault : (tick s).fault = s.fault := rfl
@[simp] theorem tick_faultPc : (tick s).faultPc = s.faultPc := rfl
@[simp] theorem tick_faultOp : (tick s).faultOp = s.faultOp := rfl
@[simp] theorem tick_faultAddr : (tick s).faultAddr = s.faultAddr := rfl
@[simp] theorem tick_mem : (tick s).mem = s.mem := rfl
@[simp] theorem tick_draws : (tick s).draws = s.draws := rfl
@[simp] theorem getV_tick (r : Nibble) : getV (tick s) r = getV s r := rfl
@[simp] theorem byteAt_tick (a : Nat) : byteAt (tick s) a = byteAt s a := rfl
@[simp] theorem slot_tick (k : Nat) : slot (tick s) k = slot s k := rfl
@[simp] theorem keyAt_tick (k : Nat) : keyAt (tick s) k = keyAt s k := rfl

/-! ### takeFault -/

@[simp] theorem takeFault_v (op : Word) (r : Raise) : (takeFault s op r).v = s.v := rfl
@[simp] theorem takeFault_i (op : Word) (r : Raise) : (takeFault s op r).i = s.i := rfl
@[simp] theorem takeFault_pc (op : Word) (r : Raise) : (takeFault s op r).pc = s.pc := rfl
@[simp] theorem takeFault_sp (op : Word) (r : Raise) : (takeFault s op r).sp = s.sp := rfl
@[simp] theorem takeFault_stack (op : Word) (r : Raise) : (takeFault s op r).stack = s.stack := rfl
@[simp] theorem takeFault_dt (op : Word) (r : Raise) : (takeFault s op r).dt = s.dt := rfl
@[simp] theorem takeFault_st (op : Word) (r : Raise) : (takeFault s op r).st = s.st := rfl
@[simp] theorem takeFault_keys (op : Word) (r : Raise) : (takeFault s op r).keys = s.keys := rfl
@[simp] theorem takeFault_fb (op : Word) (r : Raise) : (takeFault s op r).fb = s.fb := rfl
@[simp] theorem takeFault_redraw (op : Word) (r : Raise) : (takeFault s op r).redraw = s.redraw := rfl
@[simp] theorem takeFault_fault (op : Word) (r : Raise) : (takeFault s op r).fault = some r.kind := rfl
@[simp] theorem takeFault_faultPc (op : Word) (r : Raise) : (takeFault s op r).faultPc = s.pc := rfl
@[simp] theorem takeFault_faultOp (op : Word) (r : Raise) : (takeFault s op r).faultOp = op := rfl
@[simp] theorem takeFault_faultAddr (op : Word) (r : Raise) : (takeFault s op r).faultAddr = r.addr := rfl
@[simp] theorem takeFault_mem (op : Word) (r : Raise) : (takeFault s op r).mem = s.mem := rfl
@[simp] theorem takeFault_draws (op : Word) (r : Raise) : (takeFault s op r).draws = s.draws := rfl
@[simp] theorem getV_takeFault (op : Word) (r : Raise) (x : Nibble) : getV (takeFault s op r) x = getV s x := rfl
@[simp] theorem byteAt_takeFault (op : Word) (r : Raise) (a : Nat) : byteAt (takeFault s op r) a = byteAt s a := rfl
@[simp] theorem slot_takeFault (op : Word) (r : Raise) (k : Nat) : slot (takeFault s op r) k = slot s k := rfl
@[simp] theorem keyAt_takeFault (op : Word) (r : Raise) (k : Nat) : keyAt (takeFault s op r) k = keyAt s k := rfl

end Sys2Proof.Machine
end

