-- ==== Sys2Proof/Laws/Memory.lean ====
section
/-! SUPPORT. The laws of memory: a read after a write, and the canonical form kept by every operation; then
what each bounds-checked access can answer. -/

namespace Sys2Proof.Machine

/-! ## Read after write, on any list of cells -/

theorem Memory.lookup_erase (m : Memory) (a b : Nat) :
    (m.erase a).lookup b = if b = a then unlistedByte a else m.lookup b := by
  induction m with
  | nil => by_cases h : b = a <;> simp [Memory.erase, Memory.lookup, h]
  | cons c rest ih =>
    obtain ⟨k, v⟩ := c
    simp only [Memory.erase] at ih ⊢
    by_cases hk : k = a
    · subst hk
      simp only [List.filter_cons, bne_self_eq_false, Bool.false_eq_true, if_false, ih, Memory.lookup]
      split <;> rfl
    · simp only [List.filter_cons, bne_iff_ne, ne_eq, hk, not_false_eq_true, if_true, Memory.lookup, ih]
      by_cases hb : b = k
      · subst hb; simp [hk]
      · simp [hb]

theorem Memory.lookup_insert (m : Memory) (a : Nat) (x : Byte) (b : Nat) :
    (m.insert a x).lookup b = if b = a then x else m.lookup b := by
  induction m with
  | nil => simp [Memory.insert, Memory.lookup]
  | cons c rest ih =>
    obtain ⟨k, v⟩ := c
    simp only [Memory.insert]
    split
    · simp [Memory.lookup]
    · split
      · subst_vars; simp only [Memory.lookup]; split <;> rfl
      · rename_i h1 h2
        simp only [Memory.lookup, ih]
        by_cases hb : b = k
        · subst hb; simp [Ne.symm h2]
        · simp [hb]

/-- The law of a store: its own address reads the byte stored, every other address reads as before. -/
theorem Memory.lookup_store (m : Memory) (a : Nat) (x : Byte) (b : Nat) :
    (m.store a x).lookup b = if b = a then x else m.lookup b := by
  unfold Memory.store
  split
  · rename_i h; rw [Memory.lookup_erase, h]
  · exact Memory.lookup_insert m a x b

/-! ## The canonical form -/

theorem Memory.wfAbove_cons (lo : Option Nat) (a : Nat) (b : Byte) (rest : Memory) :
    Memory.wfAbove lo ((a, b) :: rest) = true ↔
      (lo.all (· < a) = true ∧ a < Config.memSize ∧ b ≠ unlistedByte a) ∧
        Memory.wfAbove (some a) rest = true := by
  simp [Memory.wfAbove, and_assoc]

theorem Memory.wfAbove_weaken (lo lo' : Option Nat) (m : Memory) (h : m.wfAbove lo = true)
    (hlo : ∀ a, lo.all (· < a) = true → lo'.all (· < a) = true) : m.wfAbove lo' = true := by
  cases m with
  | nil => rfl
  | cons c rest =>
    obtain ⟨k, v⟩ := c
    rw [Memory.wfAbove_cons] at h ⊢
    exact ⟨⟨hlo _ h.1.1, h.1.2⟩, h.2⟩

theorem Memory.wfAbove_erase (lo : Option Nat) (m : Memory) (a : Nat) (h : m.wfAbove lo = true) :
    (m.erase a).wfAbove lo = true := by
  induction m generalizing lo with
  | nil => rfl
  | cons c rest ih =>
    obtain ⟨k, v⟩ := c
    rw [Memory.wfAbove_cons] at h
    have hrest := ih (some k) h.2
    simp only [Memory.erase] at hrest ⊢
    by_cases hk : k = a
    · simp only [List.filter_cons, hk, bne_self_eq_false, Bool.false_eq_true, if_false]
      rw [hk] at hrest
      refine Memory.wfAbove_weaken (some a) lo _ hrest ?_
      intro b hb
      have h0 := h.1.1
      cases lo with
      | none => rfl
      | some l => simp at hb h0 ⊢; omega
    · simp only [List.filter_cons, bne_iff_ne, ne_eq, hk, not_false_eq_true, if_true]
      rw [Memory.wfAbove_cons]
      exact ⟨h.1, hrest⟩

theorem Memory.wfAbove_insert (lo : Option Nat) (m : Memory) (a : Nat) (b : Byte)
    (h : m.wfAbove lo = true) (hlo : lo.all (· < a) = true) (ha : a < Config.memSize)
    (hb : b ≠ unlistedByte a) : (m.insert a b).wfAbove lo = true := by
  induction m generalizing lo with
  | nil => exact (Memory.wfAbove_cons _ _ _ _).2 ⟨⟨hlo, ha, hb⟩, rfl⟩
  | cons c rest ih =>
    obtain ⟨k, v⟩ := c
    have h' := (Memory.wfAbove_cons _ _ _ _).1 h
    simp only [Memory.insert]
    split
    · rename_i hak
      refine (Memory.wfAbove_cons _ _ _ _).2 ⟨⟨hlo, ha, hb⟩, ?_⟩
      exact (Memory.wfAbove_cons _ _ _ _).2 ⟨⟨by simpa using hak, h'.1.2⟩, h'.2⟩
    · split
      · rename_i hak
        subst hak
        exact (Memory.wfAbove_cons _ _ _ _).2 ⟨⟨hlo, ha, hb⟩, h'.2⟩
      · refine (Memory.wfAbove_cons _ _ _ _).2 ⟨h'.1, ih (some k) h'.2 ?_⟩
        simp; omega

/-- A store inside memory keeps the canonical form. -/
theorem Memory.wf_store (m : Memory) (a : Nat) (b : Byte) (h : m.wf = true) (ha : a < Config.memSize) :
    (m.store a b).wf = true := by
  unfold Memory.store
  split
  · exact Memory.wfAbove_erase none m a h
  · rename_i hb
    exact Memory.wfAbove_insert none m a b h rfl ha hb

/-- The loader keeps the canonical form while it stays inside memory. -/
theorem Memory.wf_storeAll (bs : List Byte) : ∀ (m : Memory) (a : Nat), m.wf = true →
    a + bs.length ≤ Config.memSize → (m.storeAll a bs).wf = true := by
  induction bs with
  | nil => intro m a h _; exact h
  | cons b bs ih =>
    intro m a h hlen
    simp only [List.length_cons] at hlen
    exact ih _ _ (Memory.wf_store m a b h (by omega)) (by omega)

/-- The loader's law: inside the image the image's bytes, outside it what was there. -/
theorem Memory.lookup_storeAll (bs : List Byte) : ∀ (m : Memory) (a c : Nat),
    (m.storeAll a bs).lookup c =
      if a ≤ c ∧ c < a + bs.length then bs.getD (c - a) 0 else m.lookup c := by
  induction bs with
  | nil => intro m a c; simp [Memory.storeAll]
  | cons b bs ih =>
    intro m a c
    simp only [Memory.storeAll, ih, Memory.lookup_store, List.length_cons]
    by_cases h1 : a + 1 ≤ c ∧ c < a + 1 + bs.length
    · rw [if_pos h1, if_pos (by omega)]
      obtain ⟨k, hk⟩ : ∃ k, c - a = k + 1 := ⟨c - a - 1, by omega⟩
      have : c - (a + 1) = k := by omega
      simp [hk, this]
    · rw [if_neg h1]
      by_cases h2 : c = a
      · subst h2; simp
      · rw [if_neg h2, if_neg (by omega)]

theorem reset_mem_wf : State.reset.mem.wf = true := rfl

/-! ## Bounds-checked accesses -/

@[simp] theorem byteAt_setMem (s : State) (m : Memory) (a : Nat) : byteAt (setMem s m) a = m.lookup a := rfl

theorem memRead_of_lt {s : State} {a : Nat} (h : a < 4096) : memRead s a = .ok (byteAt s a) :=
  if_pos h

theorem memRead_of_ge {s : State} {a : Nat} (h : 4096 ≤ a) :
    memRead s a = .error ⟨.dataBounds, BitVec.ofNat 16 a⟩ :=
  if_neg (Nat.not_lt.2 h)

/-- Everything a byte write can answer. -/
theorem memWrite_cases (s : State) (a : Nat) (b : Byte) :
    (a < 4096 ∧ memWrite s a b = .ok (setMem s (s.mem.store a b))) ∨
      (4096 ≤ a ∧ memWrite s a b = .error ⟨.dataBounds, BitVec.ofNat 16 a⟩) := by
  unfold memWrite
  by_cases h : a < 4096
  · exact .inl ⟨h, if_pos h⟩
  · exact .inr ⟨by omega, if_neg h⟩

/-- Everything a transfer from memory can answer: the bytes in address order, or the least address out of
range. -/
theorem loadBytes_cases (s : State) (n : Nat) : ∀ a,
    ((n = 0 ∨ a + n ≤ 4096) ∧ loadBytes s a n = .ok ((List.range n).map fun k => byteAt s (a + k))) ∨
      (0 < n ∧ 4096 < a + n ∧ loadBytes s a n = .error ⟨.dataBounds, BitVec.ofNat 16 (max a 4096)⟩) := by
  induction n with
  | zero => intro a; exact .inl ⟨.inl rfl, rfl⟩
  | succ n ih =>
    intro a
    by_cases ha : a < 4096
    · rcases ih (a + 1) with ⟨hn, hok⟩ | ⟨hn, hlt, herr⟩
      · refine .inl ⟨.inr (by omega), ?_⟩
        simp only [loadBytes, memRead_of_lt ha, hok, List.range_succ_eq_map, List.map_cons, List.map_map,
          Nat.add_zero]
        congr 2
        apply List.map_congr_left
        intro k _
        show byteAt s (a + 1 + k) = byteAt s (a + (k + 1))
        congr 1; omega
      · refine .inr ⟨by omega, by omega, ?_⟩
        simp only [loadBytes, memRead_of_lt ha, herr]
        congr 3; omega
    · refine .inr ⟨by omega, by omega, ?_⟩
      simp only [loadBytes, memRead_of_ge (by omega : 4096 ≤ a)]
      congr 3; omega

/-- Everything a transfer to memory can answer: only memory differs, each byte stands at its address and no
other address changes, the canonical form is kept; or the least address out of range. -/
theorem storeBytes_cases (bs : List Byte) : ∀ (s : State) (a : Nat),
    ((bs = [] ∨ a + bs.length ≤ 4096) ∧ ∃ m, storeBytes s a bs = .ok (setMem s m) ∧
        (s.mem.wf = true → m.wf = true) ∧
        ∀ c, m.lookup c = if a ≤ c ∧ c < a + bs.length then bs.getD (c - a) 0 else byteAt s c) ∨
      (bs ≠ [] ∧ 4096 < a + bs.length ∧
        storeBytes s a bs = .error ⟨.dataBounds, BitVec.ofNat 16 (max a 4096)⟩) := by
  induction bs with
  | nil =>
    intro s a
    refine .inl ⟨.inl rfl, s.mem, rfl, id, fun c => ?_⟩
    simp [byteAt]
  | cons b bs ih =>
    intro s a
    rcases memWrite_cases s a b with ⟨ha, hw⟩ | ⟨ha, hw⟩
    · rcases ih (setMem s (s.mem.store a b)) (a + 1) with ⟨hlen, m, hm, hwf, hlook⟩ | ⟨hne, hlen, herr⟩
      · refine .inl ⟨.inr ?_, m, ?_, ?_, ?_⟩
        · rcases hlen with h | h
          · subst h; simp; omega
          · simp; omega
        · simp only [storeBytes, hw, hm]; rfl
        · intro h; exact hwf (Memory.wf_store _ _ _ h ha)
        · intro c
          rw [hlook, byteAt_setMem, Memory.lookup_store, List.length_cons]
          by_cases h1 : a + 1 ≤ c ∧ c < a + 1 + bs.length
          · rw [if_pos h1, if_pos (by omega)]
            obtain ⟨k, hk⟩ : ∃ k, c - a = k + 1 := ⟨c - a - 1, by omega⟩
            have : c - (a + 1) = k := by omega
            simp [hk, this]
          · rw [if_neg h1]
            by_cases h2 : c = a
            · subst h2; simp
            · rw [if_neg h2, if_neg (by omega)]; rfl
      · refine .inr ⟨by simp, by simp at hlen ⊢; omega, ?_⟩
        simp only [storeBytes, hw, herr]
        congr 3; omega
    · refine .inr ⟨by simp, by simp; omega, ?_⟩
      simp only [storeBytes, hw]
      congr 3; omega

end Sys2Proof.Machine
end

