-- ==== Sys2Proof/Laws/Ops.lean ====
section
/-! SUPPORT. For each shared operation, once, everything it can do: registers, stack, key latch, fault entry,
the flag-and-result order, the blit. -/

namespace Sys2Proof.Machine

/-! ## Registers -/

/-- A register write, read back at any register. -/
theorem getV_setV (s : State) (x : Nibble) (b : Byte) (y : Nibble) :
    getV (setV s x b) y = if y = x then b else getV s y := by
  simp only [getV, setV, Vector.getElem_set]
  by_cases h : y = x
  · simp [h]
  · have : x.toNat ≠ y.toNat := fun h' => h (BitVec.eq_of_toNat_eq h'.symm)
    simp [h, this]

@[simp] theorem getV_setV_self (s : State) (x : Nibble) (b : Byte) : getV (setV s x b) x = b := by
  simp [getV_setV]

theorem getV_setV_ne (s : State) {x y : Nibble} (b : Byte) (h : y ≠ x) :
    getV (setV s x b) y = getV s y := by simp [getV_setV, h]

/-- The register side of Fx65: only the general registers differ. -/
theorem setRegs_eq (bs : List Byte) : ∀ (s : State) (k : Nat),
    ∃ v, setRegs s k bs = { s with v := v } := by
  induction bs with
  | nil => intro s k; exact ⟨s.v, rfl⟩
  | cons b bs ih =>
    intro s k
    obtain ⟨v, hv⟩ := ih (setV s (BitVec.ofNat 4 k) b) (k + 1)
    exact ⟨v, by rw [setRegs, hv]; rfl⟩

/-- The register side of Fx65: the registers from `k` on take the bytes, the others keep theirs. -/
theorem getV_setRegs (bs : List Byte) : ∀ (s : State) (k : Nat) (r : Nibble), k + bs.length ≤ 16 →
    getV (setRegs s k bs) r =
      if k ≤ r.toNat ∧ r.toNat < k + bs.length then bs.getD (r.toNat - k) 0 else getV s r := by
  induction bs with
  | nil => intro s k r _; simp [setRegs]
  | cons b bs ih =>
    intro s k r hlen
    simp only [List.length_cons] at hlen
    rw [setRegs, ih _ _ _ (by omega), getV_setV, List.length_cons]
    have hk : (BitVec.ofNat 4 k).toNat = k := by
      rw [BitVec.toNat_ofNat]; exact Nat.mod_eq_of_lt (by omega)
    by_cases h1 : k + 1 ≤ r.toNat ∧ r.toNat < k + 1 + bs.length
    · rw [if_pos h1, if_pos (by omega)]
      obtain ⟨j, hj⟩ : ∃ j, r.toNat - k = j + 1 := ⟨r.toNat - k - 1, by omega⟩
      have : r.toNat - (k + 1) = j := by omega
      simp [hj, this]
    · rw [if_neg h1]
      by_cases h2 : r = BitVec.ofNat 4 k
      · rw [if_pos h2]
        have : r.toNat = k := by rw [h2, hk]
        rw [if_pos (by omega)]; simp [this]
      · rw [if_neg h2, if_neg]
        intro h3
        exact h2 (BitVec.eq_of_toNat_eq (by rw [hk]; omega))

@[simp] theorem regsUpTo_length (s : State) (x : Nibble) : (regsUpTo s x).length = x.toNat + 1 := by
  simp [regsUpTo]

theorem regsUpTo_getD (s : State) (x : Nibble) (k : Nat) (h : k ≤ x.toNat) :
    (regsUpTo s x).getD k 0 = getV s (BitVec.ofNat 4 k) := by
  have hk : k < x.toNat + 1 := by omega
  simp [regsUpTo, List.getD_eq_getElem?_getD, List.getElem?_map, List.getElem?_range hk]

/-! ## Call stack -/

/-- Everything a push can answer (R40). -/
theorem push_cases (s : State) (w : Word) :
    (s.sp.val < 16 ∧ ∃ t, push s w = .ok t ∧ t.sp.val = s.sp.val + 1 ∧
        (∀ k, slot t k = if k = s.sp.val then w else slot s k) ∧
        t = { s with stack := t.stack, sp := t.sp }) ∨
      (s.sp.val = 16 ∧ push s w = .error ⟨.stackOverflow, 0⟩) := by
  unfold push
  by_cases h : s.sp.val < 16
  · refine .inl ⟨h, _, dif_pos h, rfl, fun k => ?_, rfl⟩
    simp only [slot, Vector.getElem?_set]
    by_cases hk : k = s.sp.val
    · subst hk; simp
    · simp [hk, Ne.symm hk]
  · exact .inr ⟨by have := s.sp.isLt; omega, dif_neg h⟩

/-- Everything a pop can answer (R41). -/
theorem pop_cases (s : State) :
    (0 < s.sp.val ∧ ∃ t, pop s = .ok (slot s (s.sp.val - 1), t) ∧ t.sp.val = s.sp.val - 1 ∧
        t = { s with sp := t.sp }) ∨
      (s.sp.val = 0 ∧ pop s = .error ⟨.stackUnderflow, 0⟩) := by
  unfold pop
  by_cases h : s.sp.val = 0
  · exact .inr ⟨h, if_pos h⟩
  · exact .inl ⟨by omega, _, if_neg h, rfl, rfl⟩

/-! ## Key latch -/

theorem keyRead_of_le {s : State} {k : Byte} (h : k.toNat ≤ 0xF) :
    keyRead s k = .ok (keyAt s k.toNat) := if_pos h

theorem keyRead_of_gt {s : State} {k : Byte} (h : 0xF < k.toNat) :
    keyRead s k = .error ⟨.keyIndex, k.setWidth 16⟩ := if_neg (Nat.not_le.2 h)

/-- The lowest pressed key (R243): it is pressed, and none below it is. -/
theorem lowestKey_eq_some {s : State} {k : Nat} :
    lowestKey s = some k ↔ k < 16 ∧ keyAt s k = true ∧ ∀ j, j < k → keyAt s j = false := by
  unfold lowestKey
  rw [List.find?_range_eq_some]
  simp [List.mem_range, and_left_comm]

theorem lowestKey_eq_none {s : State} : lowestKey s = none ↔ ∀ k, k < 16 → keyAt s k = false := by
  simp [lowestKey]

/-! ## Fault entry -/

@[simp] theorem settle_ok (op : Word) (s t : State) : settle op s (.ok t) = .next t := rfl

@[simp] theorem settle_error (op : Word) (s : State) (r : Raise) :
    settle op s (.error r) = .next (takeFault s op r) := rfl

/-- Everything an instruction that can raise ends in: a next state, its own or that of fault entry. -/
theorem settle_next (op : Word) (s : State) (e : Except Raise State) :
    (∃ t, e = .ok t ∧ settle op s e = .next t) ∨
      (∃ r, e = .error r ∧ settle op s e = .next (takeFault s op r)) := by
  cases e with
  | ok t => exact .inl ⟨t, rfl, rfl⟩
  | error r => exact .inr ⟨r, rfl, rfl⟩

/-! ## Flag, then result -/

/-- Under `preOp` (R184): V[x] is the result of the old operands, VF the flag unless it is V[x] itself, every
other register is kept. -/
theorem getV_flagThenResult_preOp (flag result : Byte → Byte → Byte) (x y : Nibble) (s : State)
    (r : Nibble) :
    getV (flagThenResult .preOp flag result x y s) r =
      if r = x then result (getV s x) (getV s y)
      else if r = vf then flag (getV s x) (getV s y)
      else getV s r := by
  simp only [flagThenResult, getV_setV]

/-- Whatever the reading, a register that is neither the destination nor VF is kept (R32, R33). -/
theorem getV_flagThenResult_other (reading : Config.VfAliasReading) (flag result : Byte → Byte → Byte)
    (x y : Nibble) (s : State) {r : Nibble} (hx : r ≠ x) (hvf : r ≠ vf) :
    getV (flagThenResult reading flag result x y s) r = getV s r := by
  cases reading <;> simp only [flagThenResult, getV_setV_ne _ _ hx, getV_setV_ne _ _ hvf]

/-- Whatever the reading, only the general registers differ. -/
theorem flagThenResult_eq (reading : Config.VfAliasReading) (flag result : Byte → Byte → Byte)
    (x y : Nibble) (s : State) : ∃ v, flagThenResult reading flag result x y s = { s with v := v } := by
  cases reading <;> exact ⟨_, rfl⟩

/-- The two readings differ only when x or y is VF (U4). -/
theorem flagThenResult_readings (flag result : Byte → Byte → Byte) {x y : Nibble} (s : State)
    (hx : x ≠ vf) (hy : y ≠ vf) :
    flagThenResult .sequential flag result x y s = flagThenResult .preOp flag result x y s := by
  simp only [flagThenResult, getV_setV_ne _ _ hx, getV_setV_ne _ _ hy]

/-! ## The framebuffer -/

/-- One cell XORed: that cell, and no other (R223). -/
theorem fbCell_fbXor (f : Framebuffer) (idx : Nat) (bit : Bool) (j : Nat) (h : j < 2048) :
    fbCell (fbXor f idx bit) j = (fbCell f j ^^ (bit && decide (j = idx))) := by
  cases bit
  · simp [fbXor]
  · simp only [fbXor, if_true, fbCell, fbRow, Bool.true_and, Vector.getElem?_setIfInBounds]
    by_cases hrow : idx / 64 = j / 64
    · have hj : j / 64 < 32 := by omega
      have hcol : (j = idx) ↔ (j % 64 = idx % 64) := by omega
      simp [hrow, hj, hcol, Nat.mod_lt]
    · have hne : j ≠ idx := fun h' => hrow (by rw [h'])
      simp [hrow, hne]

/-- A cleared framebuffer reads 0 everywhere (R220). -/
@[simp] theorem fbCell_clearedFb (idx : Nat) : fbCell clearedFb idx = false := by
  unfold fbCell fbRow clearedFb
  by_cases h : idx / 64 < 32 <;> simp [h]

/-- The cells of a sprite row's columns (R224). -/
theorem spriteCell_lt (vx vy : Byte) (r c : Nat) : spriteCell vx vy r c < 2048 := by
  unfold spriteCell cellIndex
  have := Nat.mod_lt (vx.toNat + c) (by decide : 64 > 0)
  have := Nat.mod_lt (vy.toNat + r) (by decide : 32 > 0)
  omega

/-- The cells one blit visits are pairwise distinct (R224). -/
theorem spriteCell_inj (vx vy : Byte) {r r' c c' : Nat} (hr : r < 15) (hr' : r' < 15) (hc : c < 8)
    (hc' : c' < 8) (h : spriteCell vx vy r c = spriteCell vx vy r' c') : r = r' ∧ c = c' := by
  unfold spriteCell cellIndex at h
  omega

/-- The cells a blit visits, in its order, each with its sprite bit. -/
def spriteCells (vx vy : Byte) : Nat → List Byte → List (Nat × Bool)
  | _, [] => []
  | r, row :: rows =>
    (List.range 8).map (fun c => (spriteCell vx vy r c, spriteBit row c)) ++ spriteCells vx vy (r + 1) rows

theorem blitRows_eq_foldl (mode : Config.DrwCollision) (vx vy : Byte) (rows : List Byte) :
    ∀ (r : Nat) (p : Framebuffer × Byte), blitRows mode vx vy r rows p =
      (spriteCells vx vy r rows).foldl (fun q c => blitCell mode c.1 c.2 q) p := by
  induction rows with
  | nil => intro r p; rfl
  | cons row rows ih =>
    intro r p
    simp only [blitRows, spriteCells, List.foldl_append, List.foldl_map, ih, blitRow]

theorem mem_spriteCells (vx vy : Byte) (rows : List Byte) : ∀ (r : Nat) (p : Nat × Bool),
    p ∈ spriteCells vx vy r rows ↔ ∃ k c, k < rows.length ∧ c < 8 ∧
      p = (spriteCell vx vy (r + k) c, spriteBit (rows.getD k 0) c) := by
  induction rows with
  | nil => intro r p; simp [spriteCells]
  | cons row rows ih =>
    intro r p
    rw [spriteCells, List.mem_append, ih, List.mem_map]
    constructor
    · rintro (⟨c, hc, rfl⟩ | ⟨k, c, hk, hc, rfl⟩)
      · exact ⟨0, c, by simp, List.mem_range.1 hc, by simp⟩
      · refine ⟨k + 1, c, by simpa using hk, hc, ?_⟩
        rw [show r + (k + 1) = r + 1 + k by omega]; simp
    · rintro ⟨k, c, hk, hc, rfl⟩
      cases k with
      | zero => exact .inl ⟨c, List.mem_range.2 hc, by simp⟩
      | succ k =>
        refine .inr ⟨k, c, by simpa using hk, hc, ?_⟩
        rw [show r + (k + 1) = r + 1 + k by omega]; simp

theorem spriteCells_nodup (vx vy : Byte) (rows : List Byte) : ∀ r, r + rows.length ≤ 15 →
    ((spriteCells vx vy r rows).map Prod.fst).Nodup := by
  induction rows with
  | nil => intro r _; simp [spriteCells]
  | cons row rows ih =>
    intro r h
    simp only [List.length_cons] at h
    rw [spriteCells, List.map_append, List.nodup_append]
    refine ⟨?_, ih _ (by omega), ?_⟩
    · rw [List.map_map, List.nodup_map_iff_inj_on List.nodup_range]
      intro c hc c' hc' he
      exact (spriteCell_inj vx vy (by omega) (by omega) (List.mem_range.1 hc) (List.mem_range.1 hc') he).2
    · intro a ha b hb hab
      subst hab
      simp only [List.map_map, List.mem_map, List.mem_range, Function.comp_apply] at ha hb
      obtain ⟨c, hc, rfl⟩ := ha
      obtain ⟨p, hp, he⟩ := hb
      obtain ⟨k, c', hk, hc', rfl⟩ := (mem_spriteCells vx vy rows _ _).1 hp
      have := (spriteCell_inj vx vy (r := r + 1 + k) (r' := r) (by omega) (by omega) hc' hc he).1
      omega

/-- Visiting cells of distinct addresses below 2048: each is XORed once with its bit, and the latch is set
exactly when some cell collides as the framebuffer stood before the first visit (R224). -/
theorem foldl_blitCell (mode : Config.DrwCollision) (cs : List (Nat × Bool)) :
    ∀ (f : Framebuffer) (b : Byte), (cs.map Prod.fst).Nodup → (∀ p ∈ cs, p.1 < 2048) →
    (∀ j, j < 2048 → fbCell (cs.foldl (fun q c => blitCell mode c.1 c.2 q) (f, b)).1 j =
        (fbCell f j ^^ cs.any fun p => p.2 && decide (j = p.1))) ∧
      (cs.foldl (fun q c => blitCell mode c.1 c.2 q) (f, b)).2 =
        if cs.any (fun p => collides mode (fbCell f p.1) p.2) then 1 else b := by
  induction cs with
  | nil => intro f b _ _; simp
  | cons c cs ih =>
    intro f b hnd hlt
    rw [List.map_cons, List.nodup_cons] at hnd
    obtain ⟨hfb, hvf⟩ := ih (fbXor f c.1 c.2) (if collides mode (fbCell f c.1) c.2 then 1 else b) hnd.2
      (fun p hp => hlt p (List.mem_cons_of_mem _ hp))
    have hne : ∀ p ∈ cs, p.1 ≠ c.1 := fun p hp he => hnd.1 (he ▸ List.mem_map_of_mem hp)
    refine ⟨fun j hj => ?_, ?_⟩
    · rw [List.foldl_cons]
      refine (hfb j hj).trans ?_
      rw [fbCell_fbXor _ _ _ _ hj, List.any_cons]
      by_cases hjc : j = c.1
      · have : (cs.any fun p => p.2 && decide (j = p.1)) = false := by
          rw [List.any_eq_false]
          intro p hp
          have := hne p hp
          simp [hjc, Ne.symm this]
        rw [this]; simp
      · simp [hjc]
    · rw [List.foldl_cons]
      refine hvf.trans ?_
      have hany : (cs.any fun p => collides mode (fbCell (fbXor f c.1 c.2) p.1) p.2) =
          cs.any fun p => collides mode (fbCell f p.1) p.2 := by
        rw [Bool.eq_iff_iff, List.any_eq_true, List.any_eq_true]
        constructor <;> rintro ⟨p, hp, h⟩ <;> refine ⟨p, hp, ?_⟩ <;>
          simpa [fbCell_fbXor _ _ _ _ (hlt p (List.mem_cons_of_mem _ hp)), hne p hp] using h
      rw [hany, List.any_cons]
      cases (cs.any fun p => collides mode (fbCell f p.1) p.2) <;>
        cases collides mode (fbCell f c.1) c.2 <;> rfl

/-- Only the framebuffer and VF differ after a blit. -/
theorem blit_eq (mode : Config.DrwCollision) (vx vy : Byte) (rows : List Byte) (s : State) :
    ∃ f b, blit mode vx vy rows s = setV (setFb s f) vf b := ⟨_, _, rfl⟩

/-- What a blit of at most 15 rows does (R223, R224): a visited cell is XORed with its sprite bit, every other
cell is kept, and VF is 1 exactly when a visited cell collided as the framebuffer stood before. -/
theorem blit_spec (mode : Config.DrwCollision) (vx vy : Byte) (rows : List Byte) (s : State)
    (h : rows.length ≤ 15) :
    (∀ r c, r < rows.length → c < 8 →
      fbCell (blit mode vx vy rows s).fb (spriteCell vx vy r c) =
        (fbCell s.fb (spriteCell vx vy r c) ^^ spriteBit (rows.getD r 0) c)) ∧
    (∀ j, j < 2048 → (∀ r c, r < rows.length → c < 8 → spriteCell vx vy r c ≠ j) →
      fbCell (blit mode vx vy rows s).fb j = fbCell s.fb j) ∧
    ((∃ r c, r < rows.length ∧ c < 8 ∧
        collides mode (fbCell s.fb (spriteCell vx vy r c)) (spriteBit (rows.getD r 0) c) = true) →
      getV (blit mode vx vy rows s) vf = 1) ∧
    ((∀ r c, r < rows.length → c < 8 →
        collides mode (fbCell s.fb (spriteCell vx vy r c)) (spriteBit (rows.getD r 0) c) = false) →
      getV (blit mode vx vy rows s) vf = 0) := by
  have hlt : ∀ p ∈ spriteCells vx vy 0 rows, p.1 < 2048 := by
    intro p hp
    obtain ⟨k, c, _, _, rfl⟩ := (mem_spriteCells vx vy rows 0 p).1 hp
    exact spriteCell_lt _ _ _ _
  obtain ⟨hfb, hvf⟩ := foldl_blitCell mode (spriteCells vx vy 0 rows) s.fb 0
    (spriteCells_nodup vx vy rows 0 (by omega)) hlt
  rw [← blitRows_eq_foldl] at hfb hvf
  have hv : getV (blit mode vx vy rows s) vf = (blitRows mode vx vy 0 rows (s.fb, 0)).2 := by
    simp [blit]
  refine ⟨fun r c hr hc => ?_, fun j hj hout => ?_, fun ⟨r, c, hr, hc, hcol⟩ => ?_, fun hno => ?_⟩
  · refine (hfb _ (spriteCell_lt _ _ _ _)).trans ?_
    congr 1
    rw [Bool.eq_iff_iff, List.any_eq_true]
    constructor
    · rintro ⟨p, hp, hbit⟩
      obtain ⟨k, c', hk, hc', rfl⟩ := (mem_spriteCells vx vy rows 0 p).1 hp
      simp only [Nat.zero_add, Bool.and_eq_true, decide_eq_true_eq] at hbit
      obtain ⟨rfl, rfl⟩ := spriteCell_inj vx vy (by omega) (by omega) hc hc' hbit.2
      exact hbit.1
    · intro hbit
      refine ⟨(spriteCell vx vy r c, spriteBit (rows.getD r 0) c), ?_, by simpa using hbit⟩
      exact (mem_spriteCells vx vy rows 0 _).2 ⟨r, c, hr, hc, by simp⟩
  · refine (hfb j hj).trans ?_
    have : ((spriteCells vx vy 0 rows).any fun p => p.2 && decide (j = p.1)) = false := by
      rw [List.any_eq_false]
      intro p hp
      obtain ⟨k, c, hk, hc, rfl⟩ := (mem_spriteCells vx vy rows 0 p).1 hp
      have := hout k c hk hc
      simp [Ne.symm this]
    rw [this]; simp
  · rw [hv, hvf, if_pos]
    rw [List.any_eq_true]
    exact ⟨_, (mem_spriteCells vx vy rows 0 _).2 ⟨r, c, hr, hc, rfl⟩, by simpa using hcol⟩
  · rw [hv, hvf, if_neg]
    rw [List.any_eq_true]
    rintro ⟨p, hp, hcol⟩
    obtain ⟨k, c, hk, hc, rfl⟩ := (mem_spriteCells vx vy rows 0 p).1 hp
    simp only [Nat.zero_add, hno k c hk hc] at hcol
    exact Bool.noConfusion hcol

end Sys2Proof.Machine
end

