-- ==== Sys2Proof/Laws/PerInstr.lean ====
section
/-! SUPPORT. One lemma per instruction: the table of R106 selects, for the opcode of a well-formed
instruction, that instruction's own row (R105, R108), and no row at all for UNKNOWN (R112). -/

namespace Sys2Proof.Laws.EncodeSelects

set_option linter.unusedSimpArgs false

/-- The row of R106 an instruction belongs to; UNKNOWN has none. -/
def rowOf : Instr → Option OpcodeRow
  | .cls => some ⟨0xFFFF, 0x00E0, .cls⟩
  | .ret => some ⟨0xFFFF, 0x00EE, .ret⟩
  | .sys _ => some ⟨0xF000, 0x0000, .sys⟩
  | .jp _ => some ⟨0xF000, 0x1000, .jp⟩
  | .call _ => some ⟨0xF000, 0x2000, .call⟩
  | .seImm _ _ => some ⟨0xF000, 0x3000, .seImm⟩
  | .sneImm _ _ => some ⟨0xF000, 0x4000, .sneImm⟩
  | .seReg _ _ _ => some ⟨0xF000, 0x5000, .seReg⟩
  | .ldImm _ _ => some ⟨0xF000, 0x6000, .ldImm⟩
  | .addImm _ _ => some ⟨0xF000, 0x7000, .addImm⟩
  | .ldReg _ _ => some ⟨0xF00F, 0x8000, .ldReg⟩
  | .orReg _ _ => some ⟨0xF00F, 0x8001, .orReg⟩
  | .andReg _ _ => some ⟨0xF00F, 0x8002, .andReg⟩
  | .xorReg _ _ => some ⟨0xF00F, 0x8003, .xorReg⟩
  | .addReg _ _ => some ⟨0xF00F, 0x8004, .addReg⟩
  | .subReg _ _ => some ⟨0xF00F, 0x8005, .subReg⟩
  | .shr _ _ => some ⟨0xF00F, 0x8006, .shr⟩
  | .subnReg _ _ => some ⟨0xF00F, 0x8007, .subnReg⟩
  | .shl _ _ => some ⟨0xF00F, 0x800E, .shl⟩
  | .sneReg _ _ _ => some ⟨0xF000, 0x9000, .sneReg⟩
  | .ldI _ => some ⟨0xF000, 0xA000, .ldI⟩
  | .jpV0 _ => some ⟨0xF000, 0xB000, .jpV0⟩
  | .rnd _ _ => some ⟨0xF000, 0xC000, .rnd⟩
  | .drw _ _ _ => some ⟨0xF000, 0xD000, .drw⟩
  | .skp _ => some ⟨0xF0FF, 0xE09E, .skp⟩
  | .sknp _ => some ⟨0xF0FF, 0xE0A1, .sknp⟩
  | .ldVxDt _ => some ⟨0xF0FF, 0xF007, .ldVxDt⟩
  | .ldVxK _ => some ⟨0xF0FF, 0xF00A, .ldVxK⟩
  | .ldDtVx _ => some ⟨0xF0FF, 0xF015, .ldDtVx⟩
  | .ldStVx _ => some ⟨0xF0FF, 0xF018, .ldStVx⟩
  | .addI _ => some ⟨0xF0FF, 0xF01E, .addI⟩
  | .ldF _ => some ⟨0xF0FF, 0xF029, .ldF⟩
  | .ldB _ => some ⟨0xF0FF, 0xF033, .ldB⟩
  | .storeRegs _ => some ⟨0xF0FF, 0xF055, .storeRegs⟩
  | .loadRegs _ => some ⟨0xF0FF, 0xF065, .loadRegs⟩
  | .unknown _ => none

/-- The table selects the instruction's own row for its opcode. -/
def Statement (i : Instr) : Prop := i.wf = true → selectRow (encode i) = rowOf i

theorem cls : Statement .cls := by
  intro _
  simp +decide [encode, rowOf, selectRow, opcodeTable, rowsFamilies0to7, rowsFamily8, rowsFamilies9toE, rowsFamilyF, accepts_F000, accepts_F00F, accepts_F0FF, accepts_FFFF]

theorem ret : Statement .ret := by
  intro _
  simp +decide [encode, rowOf, selectRow, opcodeTable, rowsFamilies0to7, rowsFamily8, rowsFamilies9toE, rowsFamilyF, accepts_F000, accepts_F00F, accepts_F0FF, accepts_FFFF]

theorem sys (nnn : Addr12) : Statement (.sys nnn) := by
  intro h
  simp only [Instr.wf, Bool.and_eq_true, bne_iff_ne, ne_eq] at h
  have hcls : fieldNNN 0x00E0#16 = 0x0E0 := by decide
  have hret : fieldNNN 0x00EE#16 = 0x0EE := by decide
  simp +decide [encode, rowOf, selectRow, opcodeTable, rowsFamilies0to7, rowsFamily8, rowsFamilies9toE, rowsFamilyF, accepts_F000, accepts_F00F, accepts_F0FF, accepts_FFFF, hcls, hret]
  exact h

theorem jp (nnn : Addr12) : Statement (.jp nnn) := by
  intro _
  simp +decide [encode, rowOf, selectRow, opcodeTable, rowsFamilies0to7, rowsFamily8, rowsFamilies9toE, rowsFamilyF, accepts_F000, accepts_F00F, accepts_F0FF, accepts_FFFF]

theorem call (nnn : Addr12) : Statement (.call nnn) := by
  intro _
  simp +decide [encode, rowOf, selectRow, opcodeTable, rowsFamilies0to7, rowsFamily8, rowsFamilies9toE, rowsFamilyF, accepts_F000, accepts_F00F, accepts_F0FF, accepts_FFFF]

theorem seImm (x : Nibble) (nn : Byte) : Statement (.seImm x nn) := by
  intro _
  simp +decide [encode, rowOf, selectRow, opcodeTable, rowsFamilies0to7, rowsFamily8, rowsFamilies9toE, rowsFamilyF, accepts_F000, accepts_F00F, accepts_F0FF, accepts_FFFF]

theorem sneImm (x : Nibble) (nn : Byte) : Statement (.sneImm x nn) := by
  intro _
  simp +decide [encode, rowOf, selectRow, opcodeTable, rowsFamilies0to7, rowsFamily8, rowsFamilies9toE, rowsFamilyF, accepts_F000, accepts_F00F, accepts_F0FF, accepts_FFFF]

theorem seReg (x : Nibble) (y : Nibble) (n : Nibble) : Statement (.seReg x y n) := by
  intro _
  simp +decide [encode, rowOf, selectRow, opcodeTable, rowsFamilies0to7, rowsFamily8, rowsFamilies9toE, rowsFamilyF, accepts_F000, accepts_F00F, accepts_F0FF, accepts_FFFF]

theorem ldImm (x : Nibble) (nn : Byte) : Statement (.ldImm x nn) := by
  intro _
  simp +decide [encode, rowOf, selectRow, opcodeTable, rowsFamilies0to7, rowsFamily8, rowsFamilies9toE, rowsFamilyF, accepts_F000, accepts_F00F, accepts_F0FF, accepts_FFFF]

theorem addImm (x : Nibble) (nn : Byte) : Statement (.addImm x nn) := by
  intro _
  simp +decide [encode, rowOf, selectRow, opcodeTable, rowsFamilies0to7, rowsFamily8, rowsFamilies9toE, rowsFamilyF, accepts_F000, accepts_F00F, accepts_F0FF, accepts_FFFF]

theorem ldReg (x : Nibble) (y : Nibble) : Statement (.ldReg x y) := by
  intro _
  simp +decide [encode, rowOf, selectRow, opcodeTable, rowsFamilies0to7, rowsFamily8, rowsFamilies9toE, rowsFamilyF, accepts_F000, accepts_F00F, accepts_F0FF, accepts_FFFF]

theorem orReg (x : Nibble) (y : Nibble) : Statement (.orReg x y) := by
  intro _
  simp +decide [encode, rowOf, selectRow, opcodeTable, rowsFamilies0to7, rowsFamily8, rowsFamilies9toE, rowsFamilyF, accepts_F000, accepts_F00F, accepts_F0FF, accepts_FFFF]

theorem andReg (x : Nibble) (y : Nibble) : Statement (.andReg x y) := by
  intro _
  simp +decide [encode, rowOf, selectRow, opcodeTable, rowsFamilies0to7, rowsFamily8, rowsFamilies9toE, rowsFamilyF, accepts_F000, accepts_F00F, accepts_F0FF, accepts_FFFF]

theorem xorReg (x : Nibble) (y : Nibble) : Statement (.xorReg x y) := by
  intro _
  simp +decide [encode, rowOf, selectRow, opcodeTable, rowsFamilies0to7, rowsFamily8, rowsFamilies9toE, rowsFamilyF, accepts_F000, accepts_F00F, accepts_F0FF, accepts_FFFF]

theorem addReg (x : Nibble) (y : Nibble) : Statement (.addReg x y) := by
  intro _
  simp +decide [encode, rowOf, selectRow, opcodeTable, rowsFamilies0to7, rowsFamily8, rowsFamilies9toE, rowsFamilyF, accepts_F000, accepts_F00F, accepts_F0FF, accepts_FFFF]

theorem subReg (x : Nibble) (y : Nibble) : Statement (.subReg x y) := by
  intro _
  simp +decide [encode, rowOf, selectRow, opcodeTable, rowsFamilies0to7, rowsFamily8, rowsFamilies9toE, rowsFamilyF, accepts_F000, accepts_F00F, accepts_F0FF, accepts_FFFF]

theorem shr (x : Nibble) (y : Nibble) : Statement (.shr x y) := by
  intro _
  simp +decide [encode, rowOf, selectRow, opcodeTable, rowsFamilies0to7, rowsFamily8, rowsFamilies9toE, rowsFamilyF, accepts_F000, accepts_F00F, accepts_F0FF, accepts_FFFF]

theorem subnReg (x : Nibble) (y : Nibble) : Statement (.subnReg x y) := by
  intro _
  simp +decide [encode, rowOf, selectRow, opcodeTable, rowsFamilies0to7, rowsFamily8, rowsFamilies9toE, rowsFamilyF, accepts_F000, accepts_F00F, accepts_F0FF, accepts_FFFF]

theorem shl (x : Nibble) (y : Nibble) : Statement (.shl x y) := by
  intro _
  simp +decide [encode, rowOf, selectRow, opcodeTable, rowsFamilies0to7, rowsFamily8, rowsFamilies9toE, rowsFamilyF, accepts_F000, accepts_F00F, accepts_F0FF, accepts_FFFF]

theorem sneReg (x : Nibble) (y : Nibble) (n : Nibble) : Statement (.sneReg x y n) := by
  intro _
  simp +decide [encode, rowOf, selectRow, opcodeTable, rowsFamilies0to7, rowsFamily8, rowsFamilies9toE, rowsFamilyF, accepts_F000, accepts_F00F, accepts_F0FF, accepts_FFFF]

theorem ldI (nnn : Addr12) : Statement (.ldI nnn) := by
  intro _
  simp +decide [encode, rowOf, selectRow, opcodeTable, rowsFamilies0to7, rowsFamily8, rowsFamilies9toE, rowsFamilyF, accepts_F000, accepts_F00F, accepts_F0FF, accepts_FFFF]

theorem jpV0 (nnn : Addr12) : Statement (.jpV0 nnn) := by
  intro _
  simp +decide [encode, rowOf, selectRow, opcodeTable, rowsFamilies0to7, rowsFamily8, rowsFamilies9toE, rowsFamilyF, accepts_F000, accepts_F00F, accepts_F0FF, accepts_FFFF]

theorem rnd (x : Nibble) (nn : Byte) : Statement (.rnd x nn) := by
  intro _
  simp +decide [encode, rowOf, selectRow, opcodeTable, rowsFamilies0to7, rowsFamily8, rowsFamilies9toE, rowsFamilyF, accepts_F000, accepts_F00F, accepts_F0FF, accepts_FFFF]

theorem drw (x : Nibble) (y : Nibble) (n : Nibble) : Statement (.drw x y n) := by
  intro _
  simp +decide [encode, rowOf, selectRow, opcodeTable, rowsFamilies0to7, rowsFamily8, rowsFamilies9toE, rowsFamilyF, accepts_F000, accepts_F00F, accepts_F0FF, accepts_FFFF]

theorem skp (x : Nibble) : Statement (.skp x) := by
  intro _
  simp +decide [encode, rowOf, selectRow, opcodeTable, rowsFamilies0to7, rowsFamily8, rowsFamilies9toE, rowsFamilyF, accepts_F000, accepts_F00F, accepts_F0FF, accepts_FFFF]

theorem sknp (x : Nibble) : Statement (.sknp x) := by
  intro _
  simp +decide [encode, rowOf, selectRow, opcodeTable, rowsFamilies0to7, rowsFamily8, rowsFamilies9toE, rowsFamilyF, accepts_F000, accepts_F00F, accepts_F0FF, accepts_FFFF]

theorem ldVxDt (x : Nibble) : Statement (.ldVxDt x) := by
  intro _
  simp +decide [encode, rowOf, selectRow, opcodeTable, rowsFamilies0to7, rowsFamily8, rowsFamilies9toE, rowsFamilyF, accepts_F000, accepts_F00F, accepts_F0FF, accepts_FFFF]

theorem ldVxK (x : Nibble) : Statement (.ldVxK x) := by
  intro _
  simp +decide [encode, rowOf, selectRow, opcodeTable, rowsFamilies0to7, rowsFamily8, rowsFamilies9toE, rowsFamilyF, accepts_F000, accepts_F00F, accepts_F0FF, accepts_FFFF]

theorem ldDtVx (x : Nibble) : Statement (.ldDtVx x) := by
  intro _
  simp +decide [encode, rowOf, selectRow, opcodeTable, rowsFamilies0to7, rowsFamily8, rowsFamilies9toE, rowsFamilyF, accepts_F000, accepts_F00F, accepts_F0FF, accepts_FFFF]

theorem ldStVx (x : Nibble) : Statement (.ldStVx x) := by
  intro _
  simp +decide [encode, rowOf, selectRow, opcodeTable, rowsFamilies0to7, rowsFamily8, rowsFamilies9toE, rowsFamilyF, accepts_F000, accepts_F00F, accepts_F0FF, accepts_FFFF]

theorem addI (x : Nibble) : Statement (.addI x) := by
  intro _
  simp +decide [encode, rowOf, selectRow, opcodeTable, rowsFamilies0to7, rowsFamily8, rowsFamilies9toE, rowsFamilyF, accepts_F000, accepts_F00F, accepts_F0FF, accepts_FFFF]

theorem ldF (x : Nibble) : Statement (.ldF x) := by
  intro _
  simp +decide [encode, rowOf, selectRow, opcodeTable, rowsFamilies0to7, rowsFamily8, rowsFamilies9toE, rowsFamilyF, accepts_F000, accepts_F00F, accepts_F0FF, accepts_FFFF]

theorem ldB (x : Nibble) : Statement (.ldB x) := by
  intro _
  simp +decide [encode, rowOf, selectRow, opcodeTable, rowsFamilies0to7, rowsFamily8, rowsFamilies9toE, rowsFamilyF, accepts_F000, accepts_F00F, accepts_F0FF, accepts_FFFF]

theorem storeRegs (x : Nibble) : Statement (.storeRegs x) := by
  intro _
  simp +decide [encode, rowOf, selectRow, opcodeTable, rowsFamilies0to7, rowsFamily8, rowsFamilies9toE, rowsFamilyF, accepts_F000, accepts_F00F, accepts_F0FF, accepts_FFFF]

theorem loadRegs (x : Nibble) : Statement (.loadRegs x) := by
  intro _
  simp +decide [encode, rowOf, selectRow, opcodeTable, rowsFamilies0to7, rowsFamily8, rowsFamilies9toE, rowsFamilyF, accepts_F000, accepts_F00F, accepts_F0FF, accepts_FFFF]

theorem unknown (op : Word) : Statement (.unknown op) := by
  intro h
  replace h : ((familyOf op == 0x8 && [0x8, 0x9, 0xA, 0xB, 0xC, 0xD, 0xF].contains (fieldN op))
      || (familyOf op == 0xE && !([0x9E, 0xA1].contains (fieldNN op)))
      || (familyOf op == 0xF &&
          !([0x07, 0x0A, 0x15, 0x18, 0x1E, 0x29, 0x33, 0x55, 0x65].contains (fieldNN op)))) = true := h
  simp only [Bool.or_eq_true, Bool.and_eq_true, beq_iff_eq, Bool.not_eq_true'] at h
  rcases h with (⟨hf, hn⟩ | ⟨hf, hn⟩) | ⟨hf, hn⟩
  · simp only [List.contains_eq_mem, List.mem_cons, List.not_mem_nil, or_false, decide_eq_true_eq] at hn
    rcases hn with hn | hn | hn | hn | hn | hn | hn <;>
      simp +decide [encode, rowOf, selectRow, opcodeTable, rowsFamilies0to7, rowsFamily8, rowsFamilies9toE, rowsFamilyF, accepts_F000, accepts_F00F, accepts_F0FF, accepts_FFFF, hf, hn]
  · simp at hn
    simp +decide [encode, rowOf, selectRow, opcodeTable, rowsFamilies0to7, rowsFamily8, rowsFamilies9toE, rowsFamilyF, accepts_F000, accepts_F00F, accepts_F0FF, accepts_FFFF, hf]
    exact hn
  · simp at hn
    simp +decide [encode, rowOf, selectRow, opcodeTable, rowsFamilies0to7, rowsFamily8, rowsFamilies9toE, rowsFamilyF, accepts_F000, accepts_F00F, accepts_F0FF, accepts_FFFF, hf]
    exact hn

end Sys2Proof.Laws.EncodeSelects
end

