-- ==== Sys2Proof/Laws/Step.lean ====
section
/-! SUPPORT. What an instruction and a step can end in, said once (R120). -/

namespace Sys2Proof.Machine

theorem settle_isNext (op : Word) (s : State) (e : Except Raise State) : ∃ t, settle op s e = .next t := by
  cases e <;> exact ⟨_, rfl⟩

/-- Every instruction ends in a next state: no meaning faults or refuses in the host's sense. -/
theorem exec_next (i : Instr) (s : State) : ∃ t, exec i s = .next t := by
  cases i with
  | ldVxK x =>
    show ∃ t, execLdVxK x s = .next t
    unfold execLdVxK
    split <;> exact ⟨_, rfl⟩
  | ret | call | drw | skp | sknp | ldB | storeRegs | loadRegs => exact settle_isNext _ s _
  | _ => exact ⟨_, rfl⟩

theorem fetch_of_le {s : State} (h : s.pc.toNat ≤ 0x0FFE) :
    fetch s = .ok [byteAt s s.pc.toNat, byteAt s (s.pc.toNat + 1)] := if_neg (Nat.not_lt.2 h)

theorem fetch_of_gt {s : State} (h : 0x0FFE < s.pc.toNat) :
    fetch s = .error ⟨.fetchBounds, BitVec.ofNat 16 (max s.pc.toNat 0x1000)⟩ := if_pos h

/-- Everything a step cycle can be: halted, a fetch fault, or the execution of the instruction at PC with the
end of the step after it. -/
theorem runCycle_cases (s : State) :
    (s.fault ≠ none ∧ runCycle s = .next (s, .halted)) ∨
    (s.fault = none ∧ 0x0FFE < s.pc.toNat ∧
      runCycle s = .next
        (takeFault s 0 ⟨.fetchBounds, BitVec.ofNat 16 (max s.pc.toNat 0x1000)⟩, .fault .fetchBounds)) ∨
    (canFetch s ∧ ∃ t, exec (decodeWord (opcodeAtPc s)) s = .next t ∧
      runCycle s = .next (finishStep s.pc (decodeWord (opcodeAtPc s)) t)) := by
  unfold runCycle halted
  cases hf : s.fault with
  | some k => exact .inl ⟨by simp, rfl⟩
  | none =>
    by_cases hpc : s.pc.toNat ≤ 0x0FFE
    · obtain ⟨t, ht⟩ := exec_next (decodeWord (opcodeAtPc s)) s
      refine .inr (.inr ⟨⟨hf, hpc⟩, t, ht, ?_⟩)
      have ht' : exec (decodeWord (wordOfBytes (byteAt s s.pc.toNat) (byteAt s (s.pc.toNat + 1)))) s =
        .next t := ht
      simp only [fetch_of_le hpc, Option.isSome_none, Bool.false_eq_true, if_false, runBytes, decode, ht']
      rfl
    · refine .inr (.inl ⟨rfl, by omega, ?_⟩)
      simp [fetch_of_gt (by omega : 0x0FFE < s.pc.toNat)]

/-- A state that a step leaves as it is stays so for any number of steps (of any machine of the host's
interface; state it for `Sys2Proof.core` by application, its state type being that of `M`). -/
theorem run_of_step_self (M : Host.Core) (s : M.State) (h : M.step s = .next s) (n : Nat) :
    M.run n s = .next s := by
  induction n with
  | zero => rfl
  | succ n ih => rw [Host.Core.run, h]; exact ih

end Sys2Proof.Machine
end

