-- ==== Sys2Proof/Machine/Assembly.lean ====
section
/-! DEFINITION. The assembly syntax of 30_encoding.md R113: how each instruction is written. It has no part in
the machine's behaviour. Log entry 24. -/

namespace Sys2Proof.Machine

/-- One upper-case hexadecimal digit. -/
def hexDigit (d : Nat) : Char := "0123456789ABCDEF".toList.getD d '?'

/-- A register's name, V0 to VF (R113). -/
def asmReg (x : Nibble) : String := String.ofList ['V', hexDigit x.toNat]

/-- A byte immediate in hexadecimal with `0x` (R113). -/
def asmByte (nn : Byte) : String :=
  String.ofList ['0', 'x', hexDigit (nn.toNat / 16), hexDigit (nn.toNat % 16)]

/-- An address immediate in hexadecimal with `0x` (R113). -/
def asmAddr (nnn : Addr12) : String :=
  String.ofList
    ['0', 'x', hexDigit (nnn.toNat / 256), hexDigit (nnn.toNat / 16 % 16), hexDigit (nnn.toNat % 16)]

/-- A row count, a number 0 to 15 (R113). -/
def asmCount (n : Nibble) : String := toString n.toNat

/-- A mnemonic with two operands, separated by a comma (R113). -/
def asmTwo (mnemonic a b : String) : String := mnemonic ++ " " ++ a ++ ", " ++ b

/-- SHR and SHL: the second register, encoded and ignored, is written unless it is V0, its default (R113, D32). -/
def asmShift (mnemonic : String) (x y : Nibble) : String :=
  if y.toNat = 0 then mnemonic ++ " " ++ asmReg x else asmTwo mnemonic (asmReg x) (asmReg y)

/-- The text of an instruction in the mnemonic column's syntax (R106, R113, R114). Bits 3-0 of 5xyN and 9xyN
have no place in it, and an unassigned opcode has no text. -/
def asmText : Instr → Option String
  | .cls => some "CLS"
  | .ret => some "RET"
  | .sys nnn => some ("SYS " ++ asmAddr nnn)
  | .jp nnn => some ("JP " ++ asmAddr nnn)
  | .call nnn => some ("CALL " ++ asmAddr nnn)
  | .seImm x nn => some (asmTwo "SE" (asmReg x) (asmByte nn))
  | .sneImm x nn => some (asmTwo "SNE" (asmReg x) (asmByte nn))
  | .seReg x y _ => some (asmTwo "SE" (asmReg x) (asmReg y))
  | .ldImm x nn => some (asmTwo "LD" (asmReg x) (asmByte nn))
  | .addImm x nn => some (asmTwo "ADD" (asmReg x) (asmByte nn))
  | .ldReg x y => some (asmTwo "LD" (asmReg x) (asmReg y))
  | .orReg x y => some (asmTwo "OR" (asmReg x) (asmReg y))
  | .andReg x y => some (asmTwo "AND" (asmReg x) (asmReg y))
  | .xorReg x y => some (asmTwo "XOR" (asmReg x) (asmReg y))
  | .addReg x y => some (asmTwo "ADD" (asmReg x) (asmReg y))
  | .subReg x y => some (asmTwo "SUB" (asmReg x) (asmReg y))
  | .shr x y => some (asmShift "SHR" x y)
  | .subnReg x y => some (asmTwo "SUBN" (asmReg x) (asmReg y))
  | .shl x y => some (asmShift "SHL" x y)
  | .sneReg x y _ => some (asmTwo "SNE" (asmReg x) (asmReg y))
  | .ldI nnn => some (asmTwo "LD" "I" (asmAddr nnn))
  | .jpV0 nnn => some (asmTwo "JP" "V0" (asmAddr nnn))
  | .rnd x nn => some (asmTwo "RND" (asmReg x) (asmByte nn))
  | .drw x y n => some (asmTwo "DRW" (asmReg x) (asmReg y) ++ ", " ++ asmCount n)
  | .skp x => some ("SKP " ++ asmReg x)
  | .sknp x => some ("SKNP " ++ asmReg x)
  | .ldVxDt x => some (asmTwo "LD" (asmReg x) "DT")
  | .ldVxK x => some (asmTwo "LD" (asmReg x) "K")
  | .ldDtVx x => some (asmTwo "LD" "DT" (asmReg x))
  | .ldStVx x => some (asmTwo "LD" "ST" (asmReg x))
  | .addI x => some (asmTwo "ADD" "I" (asmReg x))
  | .ldF x => some (asmTwo "LD" "F" (asmReg x))
  | .ldB x => some (asmTwo "LD" "B" (asmReg x))
  | .storeRegs x => some (asmTwo "LD" "[I]" (asmReg x))
  | .loadRegs x => some (asmTwo "LD" (asmReg x) "[I]")
  | .unknown _ => none

end Sys2Proof.Machine
end

