-- ==== Sys2Proof/Tests/Slice0.lean ====
section
/-! SUPPORT. The model's own tests. Expected results come from spec/95_test_vectors.md (its ids S-, V- are
named in the comments) or from the spec's examples; each test is one step on a small state. The last part holds
the witnesses: for each statement with hypotheses, a state and operands that meet them. -/

namespace Sys2Proof.Tests

open Sys2Proof.Machine

/-! ## WellFormed: an ill-formed term for each check -/

theorem test_wf_refuses_sys_as_cls : (Instr.sys 0x0E0).wf = false := by decide
theorem test_wf_refuses_sys_as_ret : (Instr.sys 0x0EE).wf = false := by decide
theorem test_wf_refuses_assigned_unknown : (Instr.unknown 0x1234).wf = false := by decide
theorem test_wf_refuses_assigned_family8 : (Instr.unknown 0x8127).wf = false := by decide
theorem test_wf_refuses_assigned_familyE : (Instr.unknown 0xE29E).wf = false := by decide
theorem test_wf_refuses_assigned_familyF : (Instr.unknown 0xF265).wf = false := by decide
theorem test_wf_accepts : (Instr.sys 0x0E1).wf && (Instr.unknown 0x8008).wf && (Instr.unknown 0xF000).wf = true := by
  decide

/-! ## Decode: one word per constructor, written out from the layouts of R102 and R106 -/

/-- Formats FIX and NNN: p, then nnn. -/
theorem test_decode_nnn :
    [0b0000_0000_1110_0000, 0b0000_0000_1110_1110, 0b0000_0001_0010_0011, 0b0001_0010_0011_0100,
      0b0010_0011_0000_0000, 0b1010_0001_0010_0011, 0b1011_0011_0000_0000].map decodeWord =
    [.cls, .ret, .sys 0x123, .jp 0x234, .call 0x300, .ldI 0x123, .jpV0 0x300] := by decide

/-- Format XNN: p, x, nn. -/
theorem test_decode_xnn :
    [0b0011_0011_0100_0010, 0b0100_0011_0100_0010, 0b0110_1010_0011_1100, 0b0111_0010_0010_0000,
      0b1100_0011_0000_1111].map decodeWord =
    [.seImm 3 0x42, .sneImm 3 0x42, .ldImm 0xA 0x3C, .addImm 2 0x20, .rnd 3 0x0F] := by decide

/-- Format XY: p, x, y, the sub-opcode; bits 3-0 of 5xyN and 9xyN are kept but examined by no row. -/
theorem test_decode_xy :
    [0b0101_0001_0010_0001, 0b1000_0001_0101_0000, 0b1000_0001_0010_0001, 0b1000_0001_0010_0010,
      0b1000_0001_0010_0011, 0b1000_0000_0001_0100, 0b1000_0001_0010_0101, 0b1000_0001_0000_0110,
      0b1000_0001_0010_0111, 0b1000_0001_0000_1110, 0b1001_0001_0010_1111].map decodeWord =
    [.seReg 1 2 1, .ldReg 1 5, .orReg 1 2, .andReg 1 2, .xorReg 1 2, .addReg 0 1, .subReg 1 2, .shr 1 0,
      .subnReg 1 2, .shl 1 0, .sneReg 1 2 0xF] := by decide

/-- Formats XYN and X of family E. -/
theorem test_decode_xyn_and_e :
    [0b1101_0000_0001_0101, 0b1110_0101_1001_1110, 0b1110_0101_1010_0001].map decodeWord =
    [.drw 0 1 5, .skp 5, .sknp 5] := by decide

/-- Format X of family F. -/
theorem test_decode_f :
    [0b1111_0011_0000_0111, 0b1111_0010_0000_1010, 0b1111_0000_0001_0101, 0b1111_0000_0001_1000,
      0b1111_0010_0001_1110, 0b1111_0100_0010_1001, 0b1111_0001_0011_0011, 0b1111_0001_0101_0101,
      0b1111_0001_0110_0101].map decodeWord =
    [.ldVxDt 3, .ldVxK 2, .ldDtVx 0, .ldStVx 0, .addI 2, .ldF 4, .ldB 1, .storeRegs 1, .loadRegs 1] := by
  decide

/-- V-E7 to V-E11, V-E13: unassigned opcodes. -/
theorem test_decode_unknown :
    [0x8008, 0x800F, 0xE09F, 0xF0FF, 0xF000, 0xFFFF].map decodeWord =
    [.unknown 0x8008, .unknown 0x800F, .unknown 0xE09F, .unknown 0xF0FF, .unknown 0xF000, .unknown 0xFFFF] := by
  decide

/-- The first byte is the high one (R73), and the bytes after the opcode are left (R100). -/
theorem test_decode_bytes : decode [0x6A, 0x3C, 0x12, 0x00] = .ok (.ldImm 0xA 0x3C, [0x12, 0x00]) := by decide
theorem test_decode_truncated : decode [0x6A] = .error .truncated := by decide
theorem test_encode_bytes : encodeBytes (.drw 0xA 0xB 0xC) = [0xDA, 0xBC] := by decide
theorem test_table_word : decodeTableWord 16 0xF265 = some (.loadRegs 2) := by decide

/-- Texts of the programs of 95_test_vectors.md, and R113's optional second register. -/
theorem test_assembly :
    [0x6AFE, 0xD012, 0x1212, 0xFA33, 0xF265, 0x8006, 0x8126, 0xFFFF].map (fun op => asmText (decodeWord op)) =
      [some "LD VA, 0xFE", some "DRW V0, V1, 2", some "JP 0x212", some "LD B, VA", some "LD V2, [I]",
        some "SHR V0", some "SHR V1, V2", none] := by decide

/-! ## Steps -/

/-- The reset state with some registers set. -/
def withRegs (l : List (Nibble × Byte)) : State := l.foldl (fun s p => setV s p.1 p.2) State.reset

/-- Something of the state after one step of an opcode. -/
def after {α : Type} (s : State) (op : Nat) (f : State → α) : Option α :=
  match step (s.withFetchWord 16 op) with
  | .next t => some (f t)
  | _ => none

/-- PC after one step of an opcode. -/
def pcAfter (s : State) (op : Nat) : Option Word := after s op (·.pc)

/-- The fault record after one step of an opcode. -/
def faultAfter (s : State) (op : Nat) : Option (BitVec 3 × Word × Word × Word) :=
  after s op fun t => (faultCode t.fault, t.faultPc, t.faultOp, t.faultAddr)

/-- V-C1. -/
theorem test_sys : pcAfter .reset 0x0123 = some 0x202 := by decide

/-- V-C2: the slot keeps its value. -/
theorem test_ret : after { State.reset with pc := 0x300, sp := 1, stack := State.reset.stack.set 0 0x0204 } 0x00EE
    (fun t => (t.sp.val, t.pc, slot t 0)) = some (0, 0x206, 0x0204) := by decide

/-- V-C3. -/
theorem test_ret_underflow : faultAfter .reset 0x00EE = some (4, 0x200, 0x00EE, 0) := by decide

/-- V-C4. -/
theorem test_jp : pcAfter .reset 0x1234 = some 0x234 := by decide

/-- V-C7: the last slot; the pushed value is the CALL's own address. -/
theorem test_call : after { State.reset with sp := 15 } 0x2300 (fun t => (slot t 15, t.sp.val, t.pc)) =
    some (0x0200, 16, 0x300) := by decide

/-- V-C8. -/
theorem test_call_overflow : faultAfter { State.reset with sp := 16 } 0x2300 = some (3, 0x200, 0x2300, 0) := by
  decide

/-- V-C9, V-C10. -/
theorem test_seImm : (pcAfter (withRegs [(3, 0x42)]) 0x3342, pcAfter (withRegs [(3, 0x41)]) 0x3342) =
    (some 0x204, some 0x202) := by decide

/-- V-C12, V-C13. -/
theorem test_sneImm : (pcAfter (withRegs [(3, 0x42)]) 0x4342, pcAfter (withRegs [(3, 0x41)]) 0x4342) =
    (some 0x202, some 0x204) := by decide

/-- V-C16, V-C15. -/
theorem test_seReg : (pcAfter (withRegs [(1, 7), (2, 7)]) 0x5121, pcAfter (withRegs [(1, 7), (2, 8)]) 0x5120) =
    (some 0x204, some 0x202) := by decide

/-- V-C18, V-C19. -/
theorem test_sneReg : (pcAfter (withRegs [(1, 7), (2, 8)]) 0x9120, pcAfter (withRegs [(1, 7), (2, 7)]) 0x9120) =
    (some 0x204, some 0x202) := by decide

/-- V-C22: always V0. -/
theorem test_jpV0 : pcAfter (withRegs [(0, 0x10), (5, 0x99)]) 0xB500 = some 0x510 := by decide

/-- V-C23: not wrapped to 12 bits. -/
theorem test_jpV0_past : pcAfter (withRegs [(0, 0xFF)]) 0xBFFF = some 0x10FE := by decide

/-- S2. -/
theorem test_ldImm : after .reset 0x6A3C (fun t => (getV t 0xA, t.pc)) = some (0x3C, 0x202) := by decide

/-- V-A28: no carry recorded. -/
theorem test_addImm : after (withRegs [(0, 0xFF)]) 0x7002 (fun t => (getV t 0, getV t 0xF)) = some (1, 0) := by
  decide

/-- V-A30. -/
theorem test_ldReg : after (withRegs [(5, 0x99)]) 0x8150 (getV · 1) = some 0x99 := by decide

/-- V-A31. -/
theorem test_orReg : after (withRegs [(1, 0x0F), (2, 0xF0)]) 0x8121 (getV · 1) = some 0xFF := by decide

/-- V-A32. -/
theorem test_andReg : after (withRegs [(1, 0x3C), (2, 0x0F)]) 0x8122 (getV · 1) = some 0x0C := by decide

/-- V-A33. -/
theorem test_xorReg : after (withRegs [(1, 0x3C), (2, 0x0F)]) 0x8123 (getV · 1) = some 0x33 := by decide

/-- S1, V-A4: no carry at exactly 255. -/
theorem test_addReg :
    (after (withRegs [(0, 0xFF), (1, 0x01)]) 0x8014 (fun t => (getV t 0, getV t 0xF)),
      after (withRegs [(0, 0xFF), (1, 0x00)]) 0x8014 (fun t => (getV t 0, getV t 0xF))) =
    (some (0x00, 1), some (0xFF, 0)) := by decide

/-- V-A7, V-A8: VF as destination and as operand. -/
theorem test_addReg_vf :
    (after (withRegs [(0xF, 0x05), (1, 0x07)]) 0x8F14 (getV · 0xF),
      after (withRegs [(1, 0x01), (0xF, 0xFF)]) 0x81F4 (fun t => (getV t 1, getV t 0xF))) =
    (some 0x0C, some (0x00, 1)) := by decide

/-- V-A10, V-A11: a wrap, and equal operands. -/
theorem test_subReg :
    (after (withRegs [(0, 0x03), (1, 0x05)]) 0x8015 (fun t => (getV t 0, getV t 0xF)),
      after (withRegs [(0, 0x04), (1, 0x04)]) 0x8015 (fun t => (getV t 0, getV t 0xF))) =
    (some (0xFE, 0), some (0, 0)) := by decide

/-- V-A12. -/
theorem test_subReg_vf : after (withRegs [(0xF, 0x09), (1, 0x03)]) 0x8F15 (getV · 0xF) = some 0x06 := by decide

/-- V-A22: y ignored, the left shift of the default mode. -/
theorem test_shr : after (withRegs [(0, 0x81), (1, 0x55)]) 0x8016 (fun t => (getV t 0, getV t 0xF, getV t 1)) =
    some (0x02, 1, 0x55) := by decide

/-- V-A17, V-A21: the four combinations of the parameters. -/
theorem test_shr_modes :
    (getV (shrWith .rightShift .preOp 0 (withRegs [(0, 0x81)])) 0,
      getV (shrWith .observed .preOp 0xF (withRegs [(0xF, 3)])) 0xF,
      getV (shrWith .rightShift .preOp 0xF (withRegs [(0xF, 3)])) 0xF,
      getV (shrWith .observed .sequential 0xF (withRegs [(0xF, 3)])) 0xF,
      getV (shrWith .rightShift .sequential 0xF (withRegs [(0xF, 3)])) 0xF) =
    (0x40, 0x06, 0x01, 0x02, 0x00) := by decide

/-- V-A15, V-A16. -/
theorem test_subnReg :
    (after (withRegs [(0, 0x03), (1, 0x05)]) 0x8017 (fun t => (getV t 0, getV t 0xF)),
      after (withRegs [(0, 0x04), (1, 0x04)]) 0x8017 (fun t => (getV t 0, getV t 0xF))) =
    (some (0xFE, 1), some (0, 1)) := by decide

/-- V-A23, V-A25. -/
theorem test_shl :
    (after (withRegs [(0, 0x81)]) 0x800E (fun t => (getV t 0, getV t 0xF)),
      after (withRegs [(0xF, 0x81)]) 0x8F0E (getV · 0xF)) = (some (0x02, 0x80), some 0x02) := by decide

/-- R181: RND advances, and takes one draw. -/
theorem test_rnd : after .reset 0xC30F (fun t => (t.pc, t.draws)) = some (0x202, 1) := by decide

/-- V-A37: with nn = 0 the draw, whatever it is, leaves 0. -/
theorem test_rnd_zero : getV (setV State.reset 0 (Config.draw 0 &&& 0x00)) 0 = 0 := by
  rw [show Config.draw 0 &&& 0x00 = 0 from BitVec.and_zero]; decide

/-- S3. -/
theorem test_ldI : after .reset 0xA123 (fun t => (t.i, t.pc)) = some (0x123, 0x202) := by decide

/-- V-M3, V-M4. -/
theorem test_addI : (after (setI (withRegs [(0, 1)]) 0x0FFF) 0xF01E (·.i),
    after (setI (withRegs [(0, 2)]) 0xFFFF) 0xF01E (·.i)) = (some 0x1000, some 0x0001) := by decide

/-- V-M5, V-M7. -/
theorem test_ldF : (after (withRegs [(4, 0x0A)]) 0xF429 (·.i), after (withRegs [(0, 0xFF)]) 0xF029 (·.i)) =
    (some 0x082, some 0x54B) := by decide

/-- R204's example and V-M12. -/
theorem test_ldB : after (setI (withRegs [(1, 0xFE)]) 0x300) 0xF133
    (fun t => ([0x300, 0x301, 0x302].map (byteAt t), t.i)) = some ([2, 5, 4], 0x300) := by decide
theorem test_ldB_fault : faultAfter (setI (withRegs [(0, 7)]) 0x0FFE) 0xF033 = some (2, 0x200, 0xF033, 0x1000) := by
  decide

/-- V-M13, V-M15. -/
theorem test_storeRegs : after (setI (withRegs [(0, 1), (1, 2), (2, 3)]) 0x300) 0xF155
    (fun t => ([0x300, 0x301, 0x302].map (byteAt t), t.i)) = some ([1, 2, 0], 0x300) := by decide
theorem test_storeRegs_fault : after (setI (withRegs [(0, 7)]) 0x0FFF) 0xF155
    (fun t => (faultCode t.fault, t.faultAddr, byteAt t 0x0FFF)) = some (2, 0x1000, 0) := by decide

/-- V-M17 (with the font's bytes at 0x050), V-M20. -/
theorem test_loadRegs : after (setI .reset 0x050) 0xF165 (fun t => (getV t 0, getV t 1, getV t 2, t.i)) =
    some (0xF0, 0x90, 0, 0x052) := by decide
theorem test_loadRegs_fault : faultAfter (setI .reset 0xFFFF) 0xF065 = some (2, 0x200, 0xF065, 0xFFFF) := by decide

/-- V-D1. -/
theorem test_cls : after { State.reset with fb := Vector.replicate 32 (BitVec.allOnes 64) } 0x00E0 (fun t => (t.fb, t.redraw, t.pc)) =
    some (Vector.replicate 32 0, true, 0x202) := by decide

/-- V-D2: glyph 0 at the origin, its first rows. -/
theorem test_drw : after (setI .reset 0x050) 0xD015
    (fun t => ((List.range 5).map (fbCell t.fb), (List.range 5).map (fun x => fbCell t.fb (64 + x)),
      getV t 0xF, t.redraw)) =
    some ([true, true, true, true, false], [true, false, false, true, false], 0, true) := by decide

/-- V-D4 and V-D6: a lit cell under a sprite bit of 0 collides in the default test and not in the other; and
coordinates wrap. -/
theorem test_drw_collision :
    let s := setFb { State.reset with i := 0x300, mem := [(0x300, 0x80)] } (fbXor State.reset.fb 1 true)
    (after s 0xD011 (fun t => (getV t 0xF, fbCell t.fb 0, fbCell t.fb 1)),
      getV (blit .setBitsOnly 0 0 [0x80] s) 0xF) = (some (1, true, true), 0) := by decide
theorem test_drw_wraps : after { withRegs [(0, 0xFF), (1, 0x25)] with i := 0x300, mem := [(0x300, 0xC0)] } 0xD011
    (fun t => (fbCell t.fb (5 * 64 + 63), fbCell t.fb (5 * 64), fbCell t.fb (6 * 64), getV t 0xF)) =
    some (true, true, false, 0) := by decide

/-- The reset state with one key pressed. -/
def withKey (k : Nat) (l : List (Nibble × Byte)) : State := setKeyAt (withRegs l) k true

/-- V-T7, V-T8. -/
theorem test_skp : (pcAfter (withKey 0xA [(5, 0x0A)]) 0xE59E, pcAfter (withRegs [(5, 0x0A)]) 0xE59E) =
    (some 0x204, some 0x202) := by decide

/-- V-T11. -/
theorem test_skp_fault : faultAfter (withRegs [(2, 0x10)]) 0xE29E = some (5, 0x200, 0xE29E, 0x10) := by decide

/-- V-T9, V-T10. -/
theorem test_sknp : (pcAfter (withRegs [(5, 0x0A)]) 0xE5A1, pcAfter (withKey 0xA [(5, 0x0A)]) 0xE5A1) =
    (some 0x204, some 0x202) := by decide

/-- V-T12. -/
theorem test_sknp_fault : faultAfter (withRegs [(2, 0xFF)]) 0xE2A1 = some (5, 0x200, 0xE2A1, 0xFF) := by decide

/-- V-T6: DT is read before the tick. -/
theorem test_ldVxDt : after (setDt .reset 0x10) 0xF307 (fun t => (getV t 3, t.dt)) = some (0x10, 0x0F) := by decide

/-- S7, V-T13: the lowest key, and a waiting step that ticks. -/
theorem test_ldVxK : after (setKeyAt (withKey 7 []) 3 true) 0xF20A (fun t => (getV t 2, t.pc)) = some (3, 0x202) := by
  decide
theorem test_ldVxK_waits : after (setDt .reset 3) 0xF20A (fun t => (getV t 2, t.pc, t.dt)) = some (0, 0x200, 2) := by
  decide

/-- V-T3, V-T4. -/
theorem test_ldDtVx : (after (withRegs [(0, 5)]) 0xF015 (·.dt), after (withRegs [(0, 1)]) 0xF015 (·.dt)) =
    (some 4, some 0) := by decide

/-- V-T5. -/
theorem test_ldStVx : after (withRegs [(0, 2)]) 0xF018 (·.st) = some 1 := by decide

/-- V-E14. -/
theorem test_unknown : after (setDt .reset 3) 0xFFFF (fun t => (t.pc, t.dt, t.fault)) = some (0x200, 2, none) := by
  decide

/-- V-T15: no tick in a faulting step. -/
theorem test_fault_no_tick : after (setDt .reset 5) 0x00EE (·.dt) = some 5 := by decide

/-- The result a step reports, for the machine as it stands. -/
def resultOf (s : State) : Option StepResult :=
  match runCycle s with
  | .next p => some p.2
  | _ => none

/-- V-F3, V-F5, V-E14, R121: the four results. -/
theorem test_results :
    (resultOf (setPc .reset 0x0FFF), resultOf (takeFault .reset 0 ⟨.keyIndex, 0⟩),
      resultOf (State.reset.withFetchWord 16 0xFFFF), resultOf .reset) =
    (some (.fault .fetchBounds), some .halted, some (.unknown 0x200 0xFFFF), some .ok) := by decide

/-- V-T16, V-F1: the refused key, and an odd PC. -/
theorem test_setKey_rejected : (setKey 16 true .reset).2 = .rejected := by decide
theorem test_odd_pc : pcAfter (setPc .reset 0x201) 0x1234 = some 0x234 := by decide

/-- A cell equal to the reset contents is not listed: writing the font's own byte back empties the list. -/
theorem test_store_canonical : Memory.store (Memory.store [] 0x050 0x12) 0x050 0xF0 = [] := by decide

/-! ## Witnesses: the hypotheses of the statements can be met -/

/-- A machine at 0x200 about to run an opcode. -/
def at200 (op : Nat) : State := State.reset.withFetchWord 16 op

theorem witness_EncodedInstructionDecodesToItself :
    (Instr.drw 0xF 0xF 0xF).wf = true ∧ (Instr.sys 0xFFF).wf = true ∧ (Instr.unknown 0xFFFF).wf = true := by decide

theorem witness_OnlyClsAndRetOverlapSys :
    opcodeTable[0]? = some ⟨0xFFFF, 0x00E0, .cls⟩ ∧ opcodeTable[2]? = some ⟨0xF000, 0x0000, .sys⟩ ∧
      OpcodeRow.accepts ⟨0xFFFF, 0x00E0, .cls⟩ 0x00E0 = true ∧
      OpcodeRow.accepts ⟨0xF000, 0x0000, .sys⟩ 0x00E0 = true := by decide

theorem witness_FetchIsBigEndianAndBounded :
    (setPc State.reset 0x0FFE).pc.toNat ≤ 0x0FFE ∧ 0x0FFE < (setPc State.reset 0x0FFF).pc.toNat := by decide

theorem witness_StepRunsTheDecodedInstruction :
    canFetch State.reset ∧ decode [byteAt State.reset 0x200, byteAt State.reset 0x201] = .ok (.sys 0, []) ∧
      exec (.sys 0) State.reset = .next (advance State.reset) := ⟨⟨rfl, by decide⟩, by decide, rfl⟩

theorem witness_FetchPastMemoryFaults :
    (setPc State.reset 0x0FFF).fault = none ∧ 0x0FFE < (setPc State.reset 0x0FFF).pc.toNat := by decide

theorem witness_FaultingStepIsPrecise :
    (at200 0x00EE).fault = none ∧ after State.reset 0x00EE (·.fault) = some (some .stackUnderflow) := by decide

theorem witness_FaultedMachineStaysHalted : (takeFault State.reset 0 ⟨.keyIndex, 0⟩).fault ≠ none := by decide

theorem witness_TimerValuesAtTheEndOfTheirStep :
    (canFetch (at200 0xF015) ∧ opcodeAtPc (at200 0xF015) = encode (.ldDtVx 0)) ∧
    (canFetch (at200 0xF318) ∧ opcodeAtPc (at200 0xF318) = encode (.ldStVx 3)) ∧
    (canFetch (at200 0xFF07) ∧ opcodeAtPc (at200 0xFF07) = encode (.ldVxDt 0xF)) :=
  ⟨⟨⟨rfl, by decide⟩, by decide⟩, ⟨⟨rfl, by decide⟩, by decide⟩, ⟨⟨rfl, by decide⟩, by decide⟩⟩

theorem witness_UnknownIsANoOpThatStays :
    canFetch (at200 0x8008) ∧
      decodeWord (opcodeAtPc (at200 0x8008)) = .unknown (opcodeAtPc (at200 0x8008)) :=
  ⟨⟨rfl, by decide⟩, by decide⟩

theorem witness_RetResumesAfterTheCall :
    0 < ({ State.reset with sp := 1 } : State).sp.val ∧ 0 < ({ State.reset with sp := 16 } : State).sp.val ∧
      State.reset.sp.val = 0 := by decide

theorem witness_CallPushesItsOwnAddress :
    State.reset.sp.val < 16 ∧ ({ State.reset with sp := 15 } : State).sp.val < 16 ∧
      ({ State.reset with sp := 16 } : State).sp.val = 16 := by decide

/-- For AddSetsTheCarry, SubSetsGreater, ShrShiftsAsItsModeSays, SubnSetsNotGreater, ShlKeepsBitSevenInPlace and
SequentialReadingDiffersOnlyAtVF. -/
theorem witness_register_other_than_VF : (0 : Nibble) ≠ 0xF ∧ (0xE : Nibble) ≠ 0xF := by decide

theorem witness_BcdStoresThreeDigits :
    (setI State.reset 0x0FFD).i.toNat + 2 < 0x1000 ∧ 0x1000 ≤ (setI State.reset 0x0FFE).i.toNat + 2 := by decide

/-- For StoreWritesTheRegisters and LoadReadsTheRegisters. -/
theorem witness_register_transfers :
    (setI State.reset 0x0FF0).i.toNat + (0xF : Nibble).toNat < 0x1000 ∧
      0x1000 ≤ (setI State.reset 0x0FFF).i.toNat + (1 : Nibble).toNat := by decide

theorem witness_ByteAccessesAreBoundedAndReadBack : 0x0FFF < 0x1000 ∧ 0x1000 ≤ 0x1000 := by decide

theorem witness_FetchSeesEarlierStores :
    memWrite State.reset 0x200 0x12 = .ok (setMem State.reset [(0x200, 0x12)]) ∧
      memWrite (setMem State.reset [(0x200, 0x12)]) 0x201 0x34 =
        .ok (setMem State.reset [(0x200, 0x12), (0x201, 0x34)]) := ⟨rfl, rfl⟩

/-- For DrwXorsTheSprite and DrwCompletesAndReportsLitCells: each clause at its boundary, and both outcomes of
the collision test. -/
theorem witness_DrwXorsTheSprite :
    ((0 : Nibble).toNat = 0) ∧ (setI State.reset 0x0FF1).i.toNat + (0xF : Nibble).toNat ≤ 0x1000 ∧
      0 < (1 : Nibble).toNat ∧ 0x1000 < (setI State.reset 0x1000).i.toNat + (1 : Nibble).toNat ∧
      fbCell (setFb State.reset (fbXor State.reset.fb 1 true)).fb (spriteCell 0 0 0 1) = true ∧
      fbCell State.reset.fb (spriteCell 0 0 0 1) = false := by decide

theorem witness_DrawingTwiceRestoresTheFramebuffer :
    (0 : Nibble) ≠ 0xF ∧ (1 : Nibble) ≠ 0xF ∧ (setI State.reset 0x050).i.toNat + (5 : Nibble).toNat ≤ 0x1000 ∧
      ∃ t, exec (.drw 0 1 5) (setI State.reset 0x050) = .next t := ⟨by decide, by decide, by decide, _, rfl⟩

theorem witness_KeySkipsReadTheLatch :
    (getV (withRegs [(2, 0x0F)]) 2).toNat ≤ 0xF ∧ 0xF < (getV (withRegs [(2, 0x10)]) 2).toNat := by decide

theorem witness_KeyWaitTakesTheLowestKey :
    (keyAt (withKey 15 []) 15 = true ∧ ∀ j, j < 15 → keyAt (withKey 15 []) j = false) ∧
      ∀ k, k < 16 → keyAt State.reset k = false := by decide

/-- For InstructionKeepsTheFaultFieldsOrOnlyTakesAFault and WritersOfEachPieceOfState. -/
theorem witness_exec_next : exec (.jp 0x234) State.reset = .next (setPc State.reset 0x234) := rfl

/-- For WritersOfEachPieceOfState: a register that is not written beside one that is, for each kind of writer,
and both outcomes of its clause on PC. -/
theorem witness_WritersOfEachPieceOfState :
    (¬mayWriteV (.ldImm 3 0) .reset 0xF ∧ ¬mayWriteV (.addReg 3 4) .reset 4 ∧ ¬mayWriteV (.drw 3 4 5) .reset 3 ∧
      ¬mayWriteV (.ldVxK 3) .reset 3 ∧ ¬mayWriteV (.loadRegs 3) .reset 4 ∧ ¬mayWriteV .cls .reset 0) ∧
    mayFault (.jp 0x234) = false ∧ State.reset.fault = none ∧
    after .reset 0x1234 (·.fault) = some none ∧ after .reset 0x00EE (·.fault) = some (some .stackUnderflow) := by
  refine ⟨?_, by decide⟩
  unfold mayWriteV
  decide

/-- For NoInstructionReadsSoundTimerRedrawOrFaultFields: another state that differs in those fields alone. -/
theorem witness_NoInstructionReadsSoundTimerRedrawOrFaultFields :
    let r := { takeFault State.reset 0x00EE ⟨.stackUnderflow, 0⟩ with st := 5, redraw := true }
    exec (.ldStVx 0) State.reset = .next (advance State.reset) ∧
      r = { State.reset with st := r.st, redraw := r.redraw, fault := r.fault, faultPc := r.faultPc,
                             faultOp := r.faultOp, faultAddr := r.faultAddr } := ⟨rfl, rfl⟩

/-- For FaultsAreRaisedOnlyAsTabled: each of the four kinds an instruction raises. -/
theorem witness_FaultsAreRaisedOnlyAsTabled :
    State.reset.fault = none ∧ after (setI .reset 0x1000) 0xF065 (·.fault) = some (some .dataBounds) ∧
      after { State.reset with sp := 16 } 0x2300 (·.fault) = some (some .stackOverflow) ∧
      after .reset 0x00EE (·.fault) = some (some .stackUnderflow) ∧
      after (withRegs [(2, 0x10)]) 0xE29E (·.fault) = some (some .keyIndex) := by decide

theorem witness_OnlyCallAndRetTouchTheStack :
    (∀ nnn, Instr.sys 0 ≠ .call nnn) ∧ Instr.sys 0 ≠ .ret ∧
      exec (.sys 0) State.reset = .next (advance State.reset) := ⟨by decide, by decide, rfl⟩

/-- For StepsNeverWriteTheKeyLatch. -/
theorem witness_step_next : step State.reset = .next (tick (advance State.reset)) := rfl

theorem witness_LoadProgramCopiesAllOrNothing :
    (List.replicate 3584 (0x12 : Byte)).length ≤ 3584 ∧ 3584 < (List.replicate 3585 (0x12 : Byte)).length := by
  rw [List.length_replicate, List.length_replicate]; decide

theorem witness_SetKeyWritesOneSlot : 15 ≤ 15 ∧ 15 < 16 := by decide

theorem witness_OnlyResetClearsAFault :
    (takeFault State.reset 0 ⟨.keyIndex, 0⟩).fault ≠ none ∧ HostOp.ackRedraw ≠ .reset ∧
      hostAct .ackRedraw (takeFault State.reset 0 ⟨.keyIndex, 0⟩) =
        .next (takeFault State.reset 0 ⟨.keyIndex, 0⟩, .ok) := ⟨by decide, by decide, rfl⟩

/-- A machine at 0x234 with one byte stored. -/
def midRun : State := { State.reset with pc := 0x234, mem := [(0x300, 7)] }

/-- For StepKeepsTheInvariant and HostActionsKeepTheInvariant: a state of the invariant, a step of it, an
action on it. -/
theorem witness_invariant :
    Inv midRun ∧ step midRun = .next (tick (advance midRun)) ∧
      hostAct (.setKey 3 true) midRun = .next (setKeyAt midRun 3 true, .ok) := by
  refine ⟨⟨by decide, fun k => ?_, by decide, ⟨rfl, rfl, rfl⟩⟩, rfl, rfl⟩
  by_cases h : k < 16
  · simp [slot, midRun, State.reset, h]
  · simp [slot, midRun, State.reset, h]

end Sys2Proof.Tests
end

/-! PROOFS. 00_scope.md: an instruction that completes leaves the fault fields alone and one that raises does
nothing but fault entry (R16); a byte access is bounded, and a byte written is read back (R15, R76). -/

namespace Sys2Proof.Machine

/-! ## Accesses to one byte of memory -/

/-- Replacing memory changes no other piece of the state. -/
theorem unchangedBut_setMem (s : State) (m : Memory) : unchangedBut [.mem] s (setMem s m) := by
  intro p hp
  cases p with
  | mem => simp at hp
  | _ => simp [Part.same]

/-- A byte write that is not refused is in bounds and stores that byte. -/
theorem memWrite_eq_ok {s t : State} {a : Nat} {b : Byte} :
    memWrite s a b = .ok t ↔ a < 4096 ∧ t = setMem s (s.mem.store a b) := by
  rcases memWrite_cases s a b with ⟨ha, hw⟩ | ⟨ha, hw⟩
  · simp [hw, ha, eq_comm]
  · simp [hw, Nat.not_lt.2 ha]

/-- A byte write from 0x1000 up is refused with its address. -/
theorem memWrite_of_ge {s : State} {a : Nat} {b : Byte} (h : 4096 ≤ a) :
    memWrite s a b = .error ⟨.dataBounds, BitVec.ofNat 16 a⟩ :=
  if_neg (Nat.not_lt.2 h)

/-- The byte read at any address in bounds after a byte write. -/
theorem memRead_memWrite {s t : State} {a c : Nat} {b : Byte} (hw : memWrite s a b = .ok t) (hc : c < 4096) :
    memRead t c = .ok (if c = a then b else byteAt s c) := by
  obtain ⟨-, rfl⟩ := memWrite_eq_ok.1 hw
  rw [memRead_of_lt hc, byteAt_setMem, Memory.lookup_store]
  rfl

/-! ## The shared operations keep the fault fields -/

theorem pop_keeps_faults {s t : State} {w : Word} (h : pop s = .ok (w, t)) : Part.faults.same s t := by
  rcases pop_cases s with ⟨-, u, hok, -, hu⟩ | ⟨-, herr⟩
  · obtain ⟨-, rfl⟩ : slot s (s.sp.val - 1) = w ∧ u = t := by simpa [hok] using h
    rw [hu]
    exact ⟨rfl, rfl, rfl, rfl⟩
  · simp [herr] at h

theorem push_keeps_faults {s t : State} {w : Word} (h : push s w = .ok t) : Part.faults.same s t := by
  rcases push_cases s w with ⟨-, u, hok, -, -, hu⟩ | ⟨-, herr⟩
  · obtain rfl : u = t := by simpa [hok] using h
    rw [hu]
    exact ⟨rfl, rfl, rfl, rfl⟩
  · simp [herr] at h

theorem storeBytes_keeps_faults {s t : State} {a : Nat} {bs : List Byte} (h : storeBytes s a bs = .ok t) :
    Part.faults.same s t := by
  rcases storeBytes_cases bs s a with ⟨-, m, hok, -⟩ | ⟨-, -, herr⟩
  · obtain rfl : setMem s m = t := by simpa [hok] using h
    exact ⟨rfl, rfl, rfl, rfl⟩
  · simp [herr] at h

theorem setRegs_keeps_faults (s : State) (k : Nat) (bs : List Byte) : Part.faults.same s (setRegs s k bs) := by
  obtain ⟨v, hv⟩ := setRegs_eq bs s k
  rw [hv]
  exact ⟨rfl, rfl, rfl, rfl⟩

/-! ## The fault fields after an instruction -/

/-- An instruction R270's table does not list keeps the fault fields. -/
theorem exec_keeps_faults {i : Instr} {s t : State} (hi : mayFault i = false) (h : exec i s = .next t) :
    Part.faults.same s t := by
  cases i with
  | ret | call | drw | skp | sknp | ldB | storeRegs | loadRegs => simp [mayFault] at hi
  | ldVxK x =>
    change execLdVxK x s = .next t at h
    unfold execLdVxK at h
    split at h <;> cases h <;> exact ⟨rfl, rfl, rfl, rfl⟩
  | _ => cases h; exact ⟨rfl, rfl, rfl, rfl⟩

/-- The shape of an instruction that can raise: an operation that answers or raises, then writes that keep the
fault fields. It keeps them, or is fault entry with every write discarded. -/
theorem settle_map_keeps_faults_or_takesFault {α : Type} {op : Word} {s t : State} {e : Except Raise α}
    {f : α → State} (h : settle op s (e.map f) = .next t) (hf : ∀ a, e = .ok a → Part.faults.same s (f a)) :
    Part.faults.same s t ∨ ∃ r, t = takeFault s op r := by
  cases e with
  | ok a => cases h; exact .inl (hf a rfl)
  | error r => cases h; exact .inr ⟨r, rfl⟩

/-- An instruction R270's table lists keeps the fault fields or is fault entry with its own encoding. -/
theorem exec_keeps_faults_or_takesFault {i : Instr} {s t : State} (hi : mayFault i = true)
    (h : exec i s = .next t) : Part.faults.same s t ∨ ∃ r, t = takeFault s (encode i) r := by
  cases i with
  | ret =>
    exact settle_map_keeps_faults_or_takesFault h fun p hp =>
      (pop_keeps_faults hp : Part.faults.same s p.2)
  | call nnn =>
    exact settle_map_keeps_faults_or_takesFault h fun u hu =>
      (push_keeps_faults hu : Part.faults.same s u)
  | drw x y n => exact settle_map_keeps_faults_or_takesFault h fun _ _ => ⟨rfl, rfl, rfl, rfl⟩
  | skp x | sknp x => exact settle_map_keeps_faults_or_takesFault h fun _ _ => ⟨rfl, rfl, rfl, rfl⟩
  | ldB x | storeRegs x =>
    exact settle_map_keeps_faults_or_takesFault h fun u hu =>
      (storeBytes_keeps_faults hu : Part.faults.same s u)
  | loadRegs x => exact settle_map_keeps_faults_or_takesFault h fun bs _ => setRegs_keeps_faults s 0 bs
  | _ => simp [mayFault] at hi

end Sys2Proof.Machine

namespace Sys2Proof.Proofs

open Sys2Proof.Machine

/-- Settles O47, by whether R270's table lets the instruction raise. -/
theorem instructionKeepsTheFaultFieldsOrOnlyTakesAFault :
    Obligations.InstructionKeepsTheFaultFieldsOrOnlyTakesAFault := by
  intro i s t h
  cases hi : mayFault i with
  | false => exact .inl (exec_keeps_faults hi h)
  | true => exact exec_keeps_faults_or_takesFault hi h

/-- Settles O38, from the law of a store (`Memory.lookup_store`). -/
theorem byteAccessesAreBoundedAndReadBack : Obligations.ByteAccessesAreBoundedAndReadBack := by
  intro s a c b
  refine ⟨fun ha => ?_, fun ha => ⟨memWrite_of_ge ha, memRead_of_ge ha⟩⟩
  have hw : memWrite s a b = .ok (setMem s (s.mem.store a b)) := memWrite_eq_ok.2 ⟨ha, rfl⟩
  exact ⟨_, hw, unchangedBut_setMem s _, memRead_memWrite hw⟩

end Sys2Proof.Proofs

/-! PROOFS. 10_state.md: every step keeps the invariant (R37, R270, R273): what each access answers, where PC
can go, what fault entry records, then the instructions and the step. -/

namespace Sys2Proof.Machine

variable {s t : State}

/-! ## What an access that raises, or a store that does not, answers -/

theorem loadBytes_eq_error {a n : Nat} {r : Raise} (h : loadBytes s a n = .error r) :
    r = ⟨.dataBounds, BitVec.ofNat 16 (max a 4096)⟩ := by
  rcases loadBytes_cases s n a with ⟨-, hok⟩ | ⟨-, -, herr⟩
  · simp [hok] at h
  · simpa [herr] using h.symm

theorem storeBytes_eq_error {a : Nat} {bs : List Byte} {r : Raise} (h : storeBytes s a bs = .error r) :
    r = ⟨.dataBounds, BitVec.ofNat 16 (max a 4096)⟩ := by
  rcases storeBytes_cases bs s a with ⟨-, m, hok, -⟩ | ⟨-, -, herr⟩
  · simp [hok] at h
  · simpa [herr] using h.symm

/-- A transfer to memory that completes replaces memory alone, and keeps its canonical form. -/
theorem storeBytes_eq_ok {a : Nat} {bs : List Byte} (h : storeBytes s a bs = .ok t) :
    ∃ m, t = setMem s m ∧ (s.mem.wf = true → m.wf = true) := by
  rcases storeBytes_cases bs s a with ⟨-, m, hok, hwf, -⟩ | ⟨-, -, herr⟩
  · exact ⟨m, by simpa [hok] using h.symm, hwf⟩
  · simp [herr] at h

theorem keyRead_eq_error {k : Byte} {r : Raise} (h : keyRead s k = .error r) :
    0xF < k.toNat ∧ r = ⟨.keyIndex, k.setWidth 16⟩ := by
  by_cases hk : k.toNat ≤ 0xF
  · simp [keyRead_of_le hk] at h
  · exact ⟨by omega, by simpa [keyRead_of_gt (by omega : 0xF < k.toNat)] using h.symm⟩

theorem push_eq_error {w : Word} {r : Raise} (h : push s w = .error r) :
    s.sp.val = 16 ∧ r = ⟨.stackOverflow, 0⟩ := by
  rcases push_cases s w with ⟨-, u, hok, -⟩ | ⟨hsp, herr⟩
  · simp [hok] at h
  · exact ⟨hsp, by simpa [herr] using h.symm⟩

theorem pop_eq_error {r : Raise} (h : pop s = .error r) : s.sp.val = 0 ∧ r = ⟨.stackUnderflow, 0⟩ := by
  rcases pop_cases s with ⟨-, u, hok, -⟩ | ⟨hsp, herr⟩
  · simp [hok] at h
  · exact ⟨hsp, by simpa [herr] using h.symm⟩

/-! ## Where PC can go (R36, R37) -/

/-- A step of at most four bytes from an address that can be fetched stays in PC's bound. -/
theorem toNat_add_le_pcBound {p n : Word} (hp : p.toNat ≤ 0x0FFE) (hn : n.toNat ≤ 4) :
    (p + n).toNat ≤ 0x10FE := by
  rw [BitVec.toNat_add]
  omega

theorem zext_le_pcBound (nnn : Addr12) : (zext nnn).toNat ≤ 0x10FE := by
  have := nnn.isLt
  simp only [zext, BitVec.toNat_setWidth]
  omega

/-- The greatest target of a jump, 0xFFF + 0xFF, is PC's bound (R37). -/
theorem jumpTarget_le_pcBound (nnn : Addr12) (a : Byte) : (jumpTarget nnn a).toNat ≤ 0x10FE := by
  have := nnn.isLt
  have := a.isLt
  simp only [jumpTarget, BitVec.toNat_ofNat]
  omega

/-! ## The fault record that fault entry leaves (R270) -/

theorem faultRecordOk_fetchBounds (hpc : 0x0FFE < s.pc.toNat) :
    faultRecordOk (takeFault s 0 ⟨.fetchBounds, BitVec.ofNat 16 (max s.pc.toNat 0x1000)⟩) := by
  have := s.pc.isLt
  refine ⟨rfl, hpc, rfl, ?_⟩
  rw [takeFault_faultAddr, takeFault_pc, BitVec.toNat_ofNat]
  omega

theorem faultRecordOk_dataBounds (op : Word) (hpc : s.pc.toNat ≤ 0x0FFE) :
    faultRecordOk (takeFault s op ⟨.dataBounds, BitVec.ofNat 16 (max s.i.toNat 4096)⟩) := by
  have := s.i.isLt
  refine ⟨rfl, hpc, ?_⟩
  rw [takeFault_faultAddr, takeFault_i, BitVec.toNat_ofNat]
  omega

/-- For SKP and SKNP, whose opcodes name the register that held the key. -/
theorem faultRecordOk_keyIndex {op : Word} {x : Nibble} {r : Raise} (hpc : s.pc.toNat ≤ 0x0FFE)
    (hx : fieldX op = x) (h : keyRead s (getV s x) = .error r) : faultRecordOk (takeFault s op r) := by
  obtain ⟨hk, rfl⟩ := keyRead_eq_error h
  subst hx
  refine ⟨rfl, hpc, rfl, ?_⟩
  rw [takeFault_faultAddr, BitVec.toNat_setWidth]
  omega

/-! ## The invariant after a tick, a fault and a completed instruction -/

theorem inv_tick (h : Inv s) : Inv (tick s) := ⟨h.memory, h.slots, h.pcBound, h.record⟩

theorem inv_takeFault {op : Word} {r : Raise} (h : Inv s) (hr : faultRecordOk (takeFault s op r)) :
    Inv (takeFault s op r) := ⟨h.memory, h.slots, h.pcBound, hr⟩

theorem inv_finishStep (pc : Word) (i : Instr) (h : Inv t) : Inv (finishStep pc i t).1 := by
  unfold finishStep
  split
  · exact h
  · exact inv_tick h

/-- With no fault recorded, the record stays right as long as the fault fields are kept. -/
theorem faultRecordOk_of_same (hs : s.fault = none) (h : faultRecordOk s) (hf : Part.faults.same s t) :
    faultRecordOk t := by
  obtain ⟨hfault, hfpc, hfop, hfaddr⟩ := hf
  simpa [faultRecordOk, hfault, hs, hfpc, hfop, hfaddr] using h

/-- An instruction that completes without writing memory or a stack slot keeps the invariant if it keeps PC in
its bound. -/
theorem inv_of_pcBound (h : Inv s) (hs : s.fault = none) (hf : Part.faults.same s t) (hmem : t.mem = s.mem)
    (hstack : t.stack = s.stack) (hpc : t.pc.toNat ≤ 0x10FE) : Inv t where
  memory := hmem ▸ h.memory
  slots k := by simpa [slot, hstack] using h.slots k
  pcBound := hpc
  record := faultRecordOk_of_same hs h.record hf

/-- An instruction that can raise keeps the invariant if its writes do, and if what it raises is recorded
right. -/
theorem inv_of_settle_map {α : Type} {op : Word} {e : Except Raise α} {f : α → State} (hs : Inv s)
    (h : settle op s (e.map f) = .next t) (hok : ∀ a, e = .ok a → Inv (f a))
    (herr : ∀ r, e = .error r → faultRecordOk (takeFault s op r)) : Inv t := by
  cases e with
  | ok a => cases h; exact hok a rfl
  | error r => cases h; exact inv_takeFault hs (herr r rfl)

/-! ## The instructions that write memory or the call stack -/

/-- LD B and LD [I]: a transfer to memory from I on. -/
theorem inv_of_settle_storeBytes {op : Word} {bs : List Byte} (hs : Inv s) (hc : canFetch s)
    (h : settle op s ((storeBytes s s.i.toNat bs).map advance) = .next t) : Inv t := by
  obtain ⟨hfault, hpc⟩ := hc
  refine inv_of_settle_map hs h (fun u hu => ?_) fun r hr => ?_
  · obtain ⟨m, rfl, hwf⟩ := storeBytes_eq_ok hu
    exact ⟨hwf hs.memory, hs.slots, toNat_add_le_pcBound hpc (by decide),
      faultRecordOk_of_same hfault hs.record ⟨rfl, rfl, rfl, rfl⟩⟩
  · obtain rfl := storeBytes_eq_error hr
    exact faultRecordOk_dataBounds op hpc

/-- RET: the popped slot's bound is PC's. -/
theorem inv_execRet (hs : Inv s) (hc : canFetch s) (h : execRet s = .next t) : Inv t := by
  obtain ⟨hfault, hpc⟩ := hc
  refine inv_of_settle_map hs h (fun p hp => ?_) fun r hr => ?_
  · rcases pop_cases s with ⟨-, u, hok, -, hu⟩ | ⟨-, herr⟩
    · obtain rfl : (slot s (s.sp.val - 1), u) = p := by simpa [hok] using hp
      refine inv_of_pcBound hs hfault (pop_keeps_faults hp : Part.faults.same s u) ?_ ?_
        (toNat_add_le_pcBound (hs.slots _) (by decide))
      · rw [setPc_mem, hu]
      · rw [setPc_stack, hu]
    · simp [herr] at hp
  · obtain ⟨hsp, rfl⟩ := pop_eq_error hr
    exact ⟨rfl, hpc, hsp, rfl, rfl⟩

/-- CALL: the pushed address could be fetched. -/
theorem inv_execCall {nnn : Addr12} (hs : Inv s) (hc : canFetch s) (h : execCall nnn s = .next t) : Inv t := by
  obtain ⟨hfault, hpc⟩ := hc
  refine inv_of_settle_map hs h (fun u hu => ?_) fun r hr => ?_
  · rcases push_cases s s.pc with ⟨-, u', hok, -, hslot, hu'⟩ | ⟨-, herr⟩
    · obtain rfl : u' = u := by simpa [hok] using hu
      refine ⟨?_, fun k => ?_, zext_le_pcBound nnn,
        faultRecordOk_of_same hfault hs.record (push_keeps_faults hu : Part.faults.same s u')⟩
      · rw [setPc_mem, hu']
        exact hs.memory
      · rw [slot_setPc, hslot]
        split
        · exact hpc
        · exact hs.slots k
    · simp [herr] at hu
  · obtain ⟨hsp, rfl⟩ := push_eq_error hr
    exact ⟨rfl, hpc, hsp, rfl⟩

/-! ## Every instruction, and the step -/

/-- An instruction run where a step runs it keeps the invariant. -/
theorem inv_exec {i : Instr} (hs : Inv s) (hc : canFetch s) (h : exec i s = .next t) : Inv t := by
  have ⟨hfault, hpc⟩ := hc
  have hadv : (s.pc + 2).toNat ≤ 0x10FE := toNat_add_le_pcBound hpc (by decide)
  have hskip (c : Bool) : (s.pc + if c then 4 else 2).toNat ≤ 0x10FE :=
    toNat_add_le_pcBound hpc (by cases c <;> decide)
  cases i with
  | ret => exact inv_execRet hs hc h
  | call nnn => exact inv_execCall hs hc h
  | ldB x | storeRegs x => exact inv_of_settle_storeBytes hs hc h
  | drw x y n =>
    refine inv_of_settle_map hs h (fun rows _ => inv_of_pcBound hs hfault ⟨rfl, rfl, rfl, rfl⟩ rfl rfl hadv)
      fun r hr => ?_
    obtain rfl := loadBytes_eq_error hr
    exact faultRecordOk_dataBounds _ hpc
  | loadRegs x =>
    refine inv_of_settle_map hs h (fun bs _ => ?_) fun r hr => ?_
    · obtain ⟨v, hv⟩ := setRegs_eq bs s 0
      rw [hv]
      exact inv_of_pcBound hs hfault ⟨rfl, rfl, rfl, rfl⟩ rfl rfl hadv
    · obtain rfl := loadBytes_eq_error hr
      exact faultRecordOk_dataBounds _ hpc
  | skp x | sknp x =>
    exact inv_of_settle_map hs h
      (fun k _ => inv_of_pcBound hs hfault ⟨rfl, rfl, rfl, rfl⟩ rfl rfl (hskip _))
      fun r hr => faultRecordOk_keyIndex hpc (fieldX_packXNN _ x _) hr
  | ldVxK x =>
    change execLdVxK x s = .next t at h
    unfold execLdVxK at h
    split at h <;> cases h
    · exact inv_of_pcBound hs hfault ⟨rfl, rfl, rfl, rfl⟩ rfl rfl hadv
    · exact hs
  | unknown op => cases h; exact hs
  | jp nnn =>
    cases h; exact inv_of_pcBound hs hfault ⟨rfl, rfl, rfl, rfl⟩ rfl rfl (zext_le_pcBound nnn)
  | jpV0 nnn =>
    cases h; exact inv_of_pcBound hs hfault ⟨rfl, rfl, rfl, rfl⟩ rfl rfl (jumpTarget_le_pcBound nnn _)
  | seImm | sneImm | seReg | sneReg =>
    cases h; exact inv_of_pcBound hs hfault ⟨rfl, rfl, rfl, rfl⟩ rfl rfl (hskip _)
  | _ => cases h; exact inv_of_pcBound hs hfault ⟨rfl, rfl, rfl, rfl⟩ rfl rfl hadv

/-- Every cycle keeps the invariant: halted, fetch fault or executed instruction. -/
theorem inv_runCycle {r : StepResult} (hs : Inv s) (h : runCycle s = .next (t, r)) : Inv t := by
  rcases runCycle_cases s with ⟨-, hrun⟩ | ⟨-, hpc, hrun⟩ | ⟨hc, u, hu, hrun⟩
  · cases hrun.symm.trans h
    exact hs
  · cases hrun.symm.trans h
    exact inv_takeFault hs (faultRecordOk_fetchBounds hpc)
  · have hfin := inv_finishStep s.pc (decodeWord (opcodeAtPc s)) (inv_exec hs hc hu)
    rw [Host.Outcome.next.inj (hrun.symm.trans h)] at hfin
    exact hfin

/-- A step's next state is its cycle's, some result dropped. -/
theorem step_eq_next (h : step s = .next t) : ∃ r, runCycle s = .next (t, r) := by
  unfold step dropResult at h
  split at h <;> cases h
  exact ⟨_, by assumption⟩

end Sys2Proof.Machine

namespace Sys2Proof.Proofs

open Sys2Proof.Machine

/-- Settles O54, by what a cycle can be (`runCycle_cases`) and, where it executes, by the instruction. -/
theorem stepKeepsTheInvariant : Obligations.StepKeepsTheInvariant := by
  intro s t hs h
  obtain ⟨r, hrun⟩ := step_eq_next h
  exact inv_runCycle hs hrun

end Sys2Proof.Proofs

/-! PROOFS. 10_state.md: no instruction but CALL and RET reads or writes the call stack (R42), by running each
over another stack. -/

namespace Sys2Proof.Machine

variable (sp : Fin 17) (stack : Vector Word 16)

/-- The state with another SP and other slots. -/
def withStack (s : State) : State := { s with sp := sp, stack := stack }

/-- Transfers from memory do not read the call stack. -/
theorem loadBytes_withStack (s : State) (n : Nat) : ∀ a,
    loadBytes (withStack sp stack s) a n = loadBytes s a n := by
  induction n with
  | zero => intro a; rfl
  | succ n ih =>
    intro a
    simp only [loadBytes, ih]
    rfl

/-- A byte write neither reads nor writes the call stack. -/
theorem memWrite_withStack (s : State) (a : Nat) (b : Byte) :
    memWrite (withStack sp stack s) a b = (memWrite s a b).map (withStack sp stack) := by
  unfold memWrite
  split <;> rfl

/-- Transfers to memory neither read nor write the call stack. -/
theorem storeBytes_withStack (bs : List Byte) : ∀ (s : State) (a : Nat),
    storeBytes (withStack sp stack s) a bs = (storeBytes s a bs).map (withStack sp stack) := by
  induction bs with
  | nil => intro s a; rfl
  | cons b bs ih =>
    intro s a
    rw [storeBytes, storeBytes, memWrite_withStack]
    cases memWrite s a b with
    | ok u => exact ih u (a + 1)
    | error r => rfl

theorem setRegs_withStack (bs : List Byte) : ∀ (s : State) (k : Nat),
    setRegs (withStack sp stack s) k bs = withStack sp stack (setRegs s k bs) := by
  induction bs with
  | nil => intro s k; rfl
  | cons b bs ih => intro s k; exact ih (setV s _ b) (k + 1)

/-- The shape of an instruction that can raise, run over the other stack: if its operation answers the same and
its writes do the same, so does it, fault entry included. -/
theorem settle_map_withStack {α : Type} {op : Word} {s t : State} {e : Except Raise α} {f g : α → State}
    (h : settle op s (e.map f) = .next t) (hg : ∀ a, g a = withStack sp stack (f a)) :
    settle op (withStack sp stack s) (e.map g) = .next (withStack sp stack t) := by
  cases e with
  | ok a => cases h; exact congrArg _ (hg a)
  | error r => cases h; rfl

/-- LD B and LD [I] over the other stack. -/
theorem settle_storeBytes_withStack {op : Word} {s t : State} {a : Nat} {bs : List Byte}
    (h : settle op s ((storeBytes s a bs).map advance) = .next t) :
    settle op (withStack sp stack s) ((storeBytes (withStack sp stack s) a bs).map advance) =
      .next (withStack sp stack t) := by
  rw [storeBytes_withStack]
  cases hst : storeBytes s a bs with
  | ok u => rw [hst] at h; cases h; rfl
  | error r => rw [hst] at h; cases h; rfl

/-- An instruction other than CALL and RET does the same over the other stack, and leaves it as it is. -/
theorem exec_withStack {i : Instr} {s t : State} (hcall : ∀ nnn, i ≠ .call nnn) (hret : i ≠ .ret)
    (h : exec i s = .next t) : exec i (withStack sp stack s) = .next (withStack sp stack t) := by
  cases i with
  | ret => exact absurd rfl hret
  | call nnn => exact absurd rfl (hcall nnn)
  | ldB x | storeRegs x => exact settle_storeBytes_withStack sp stack h
  | drw x y n =>
    change settle _ _ ((loadBytes (withStack sp stack s) s.i.toNat n.toNat).map _) = _
    rw [loadBytes_withStack]
    exact settle_map_withStack sp stack h fun _ => rfl
  | loadRegs x =>
    change settle _ _ ((loadBytes (withStack sp stack s) s.i.toNat (x.toNat + 1)).map _) = _
    rw [loadBytes_withStack]
    refine settle_map_withStack sp stack h fun bs => ?_
    rw [setRegs_withStack]
    rfl
  | skp x | sknp x => exact settle_map_withStack sp stack h fun _ => rfl
  | ldVxK x =>
    change execLdVxK x s = .next t at h
    change execLdVxK x (withStack sp stack s) = _
    have hkey : lowestKey (withStack sp stack s) = lowestKey s := rfl
    unfold execLdVxK at h ⊢
    rw [hkey]
    cases hk : lowestKey s with
    | some k | none => rw [hk] at h; cases h; rfl
  | _ => cases h; rfl

end Sys2Proof.Machine

namespace Sys2Proof.Proofs

open Sys2Proof.Machine

/-- Settles O49, by the instruction: what it reads and writes is the same over any stack. -/
theorem onlyCallAndRetTouchTheStack : Obligations.OnlyCallAndRetTouchTheStack := by
  intro i s t sp stack hcall hret h
  exact exec_withStack sp stack hcall hret h

end Sys2Proof.Proofs

/-! PROOFS. 20_memory.md: a fetch reads what earlier stores wrote (R87), and the loader copies an image whole or
refuses it (R82, R83). -/

namespace Sys2Proof.Machine

variable {s t : State}

/-! ## What a byte write leaves behind -/

/-- The byte at any address after a byte write: `Memory.lookup_store` through the checked access. -/
theorem byteAt_memWrite {a : Nat} {b : Byte} (hw : memWrite s a b = .ok t) (c : Nat) :
    byteAt t c = if c = a then b else byteAt s c := by
  obtain ⟨-, rfl⟩ := memWrite_eq_ok.1 hw
  exact Memory.lookup_store s.mem a b c

theorem memWrite_keeps_pc {a : Nat} {b : Byte} (hw : memWrite s a b = .ok t) : t.pc = s.pc := by
  obtain ⟨-, rfl⟩ := memWrite_eq_ok.1 hw
  rfl

/-! ## The loader (R82) -/

theorem loadProgram_of_le {bytes : List Byte} (h : bytes.length ≤ 3584) :
    loadProgram bytes s = (setMem s (s.mem.storeAll 0x200 bytes), .ok) := if_pos h

theorem loadProgram_of_gt {bytes : List Byte} (h : 3584 < bytes.length) :
    loadProgram bytes s = (s, .loadError) := if_neg (Nat.not_le.2 h)

/-- A byte of the image, read where the loader put it. -/
theorem byteAt_storeAll_image {bytes : List Byte} {k : Nat} (a : Nat) (hk : k < bytes.length) :
    byteAt (setMem s (s.mem.storeAll a bytes)) (a + k) = bytes.getD k 0 := by
  rw [byteAt_setMem, Memory.lookup_storeAll, if_pos (by omega), Nat.add_sub_cancel_left]

theorem memUnchangedOutside_storeAll (a : Nat) (bytes : List Byte) :
    memUnchangedOutside a bytes.length s (setMem s (s.mem.storeAll a bytes)) := by
  intro c hc
  rw [byteAt_setMem, Memory.lookup_storeAll, if_neg hc]
  rfl

end Sys2Proof.Machine

namespace Sys2Proof.Proofs

open Sys2Proof.Machine

/-- Settles O39: the second store's success puts PC where a fetch succeeds, and the two stores are at different
addresses, so neither hides the other. -/
theorem fetchSeesEarlierStores : Obligations.FetchSeesEarlierStores := by
  intro s t u hi lo hhi hlo
  have hpc : u.pc = s.pc := (memWrite_keeps_pc hlo).trans (memWrite_keeps_pc hhi)
  obtain ⟨hbound, -⟩ := memWrite_eq_ok.1 hlo
  have hfetch := fetch_of_le (s := u) (by rw [hpc]; omega)
  have hhigh : byteAt u s.pc.toNat = hi := by
    rw [byteAt_memWrite hlo, if_neg (by omega), byteAt_memWrite hhi, if_pos rfl]
  have hlow : byteAt u (s.pc.toNat + 1) = lo := by
    rw [byteAt_memWrite hlo, if_pos rfl]
  rw [hfetch, hpc, hhigh, hlow]

/-- Settles O56, by whether the image fits, from the loader's law (`Memory.lookup_storeAll`). -/
theorem loadProgramCopiesAllOrNothing : Obligations.LoadProgramCopiesAllOrNothing := by
  intro bytes s
  refine ⟨fun hfits => ?_, fun hlong => congrArg Host.Outcome.next (loadProgram_of_gt hlong)⟩
  exact ⟨_, congrArg Host.Outcome.next (loadProgram_of_le hfits), fun k hk => byteAt_storeAll_image 0x200 hk,
    memUnchangedOutside_storeAll 0x200 bytes, unchangedBut_setMem s _⟩

end Sys2Proof.Proofs

/-! PROOFS. 30_encoding.md: decode and encode are inverse to each other (R105, R106), which opcodes are unassigned
(R109), which rows of the table overlap (R108), and what a step does with UNKNOWN (R112). -/

namespace Sys2Proof

open Sys2Proof.Laws.EncodeSelects (rowOf)

variable {op : Word} {r q : OpcodeRow}

/-! ## Decode of encode -/

/-- The table selects its own row for every well-formed instruction, constructor by constructor. -/
theorem selectRow_encode : ∀ {i : Instr}, i.wf = true → selectRow (encode i) = rowOf i
  | .cls => Laws.EncodeSelects.cls
  | .ret => Laws.EncodeSelects.ret
  | .sys nnn => Laws.EncodeSelects.sys nnn
  | .jp nnn => Laws.EncodeSelects.jp nnn
  | .call nnn => Laws.EncodeSelects.call nnn
  | .seImm x nn => Laws.EncodeSelects.seImm x nn
  | .sneImm x nn => Laws.EncodeSelects.sneImm x nn
  | .seReg x y n => Laws.EncodeSelects.seReg x y n
  | .ldImm x nn => Laws.EncodeSelects.ldImm x nn
  | .addImm x nn => Laws.EncodeSelects.addImm x nn
  | .ldReg x y => Laws.EncodeSelects.ldReg x y
  | .orReg x y => Laws.EncodeSelects.orReg x y
  | .andReg x y => Laws.EncodeSelects.andReg x y
  | .xorReg x y => Laws.EncodeSelects.xorReg x y
  | .addReg x y => Laws.EncodeSelects.addReg x y
  | .subReg x y => Laws.EncodeSelects.subReg x y
  | .shr x y => Laws.EncodeSelects.shr x y
  | .subnReg x y => Laws.EncodeSelects.subnReg x y
  | .shl x y => Laws.EncodeSelects.shl x y
  | .sneReg x y n => Laws.EncodeSelects.sneReg x y n
  | .ldI nnn => Laws.EncodeSelects.ldI nnn
  | .jpV0 nnn => Laws.EncodeSelects.jpV0 nnn
  | .rnd x nn => Laws.EncodeSelects.rnd x nn
  | .drw x y n => Laws.EncodeSelects.drw x y n
  | .skp x => Laws.EncodeSelects.skp x
  | .sknp x => Laws.EncodeSelects.sknp x
  | .ldVxDt x => Laws.EncodeSelects.ldVxDt x
  | .ldVxK x => Laws.EncodeSelects.ldVxK x
  | .ldDtVx x => Laws.EncodeSelects.ldDtVx x
  | .ldStVx x => Laws.EncodeSelects.ldStVx x
  | .addI x => Laws.EncodeSelects.addI x
  | .ldF x => Laws.EncodeSelects.ldF x
  | .ldB x => Laws.EncodeSelects.ldB x
  | .storeRegs x => Laws.EncodeSelects.storeRegs x
  | .loadRegs x => Laws.EncodeSelects.loadRegs x
  | .unknown op => Laws.EncodeSelects.unknown op

theorem decodeWord_of_selectRow_eq_some (h : selectRow op = some r) : decodeWord op = r.form.build op := by
  rw [decodeWord, h]

theorem decodeWord_of_selectRow_eq_none (h : selectRow op = none) : decodeWord op = .unknown op := by
  rw [decodeWord, h]

/-- The operands read out of an instruction's opcode are its own. -/
theorem build_encode {i : Instr} (h : rowOf i = some r) : r.form.build (encode i) = i := by
  cases i with
  | unknown op => cases h
  | _ => cases h; simp [Form.build, encode]

theorem decodeWord_encode {i : Instr} (h : i.wf = true) : decodeWord (encode i) = i := by
  have hsel := selectRow_encode h
  cases hrow : rowOf i with
  | some r => rw [decodeWord_of_selectRow_eq_some (hsel.trans hrow), build_encode hrow]
  | none =>
    rw [decodeWord_of_selectRow_eq_none (hsel.trans hrow)]
    cases i with
    | unknown op => rfl
    | _ => cases hrow

/-- The decoder on the bytes of an opcode: that opcode's instruction, and the bytes after it. -/
theorem decode_bytesOfWord_append (op : Word) (rest : List Byte) :
    decode (bytesOfWord op ++ rest) = .ok (decodeWord op, rest) :=
  congrArg (fun w => Except.ok (decodeWord w, rest)) (wordOfBytes_bytes op)

/-- Opcodes that are the encodings of well-formed instructions decode to them, in order. -/
theorem map_decodeWord_of_map_encode {is : List Instr} {ops : List Word} (hops : is.map encode = ops)
    (hwf : ∀ i ∈ is, i.wf = true) : ops.map decodeWord = is := by
  rw [← hops, List.map_map]
  exact (List.map_congr_left fun i hi => decodeWord_encode (hwf i hi)).trans (List.map_id is)

/-! ## Encode of decode: every opcode is the encoding of a well-formed instruction -/

theorem packNNN_of_family {p : Nibble} (hp : familyOf op = p) : packNNN p (fieldNNN op) = op :=
  hp ▸ packNNN_fields op

theorem packXNN_of_family {p : Nibble} (hp : familyOf op = p) : packXNN p (fieldX op) (fieldNN op) = op :=
  hp ▸ packXNN_fields op

theorem packXYN_of_family {p : Nibble} (hp : familyOf op = p) :
    packXYN p (fieldX op) (fieldY op) (fieldN op) = op :=
  hp ▸ packXYN_fields op

/-- R109's map, over the fields of the opcode. -/
theorem isUnknownWord_iff : isUnknownWord op = true ↔
    (familyOf op = 0x8 ∧ fieldN op ∈ [0x8, 0x9, 0xA, 0xB, 0xC, 0xD, 0xF]) ∨
    (familyOf op = 0xE ∧ fieldNN op ∉ [0x9E, 0xA1]) ∨
    (familyOf op = 0xF ∧ fieldNN op ∉ [0x07, 0x0A, 0x15, 0x18, 0x1E, 0x29, 0x33, 0x55, 0x65]) := by
  change ((familyOf op == 0x8 && [0x8, 0x9, 0xA, 0xB, 0xC, 0xD, 0xF].contains (fieldN op))
    || (familyOf op == 0xE && !([0x9E, 0xA1].contains (fieldNN op)))
    || (familyOf op == 0xF &&
      !([0x07, 0x0A, 0x15, 0x18, 0x1E, 0x29, 0x33, 0x55, 0x65].contains (fieldNN op)))) = true ↔ _
  simp only [Bool.or_eq_true, Bool.and_eq_true, beq_iff_eq, Bool.not_eq_true', List.contains_eq_mem,
    decide_eq_true_eq, decide_eq_false_iff_not, or_assoc]

/-- Family 0: CLS and RET by their addresses, SYS otherwise. -/
theorem exists_encode_family0 (hp : familyOf op = 0x0) : ∃ i : Instr, i.wf = true ∧ encode i = op := by
  have hop := packNNN_of_family hp
  by_cases hcls : fieldNNN op = 0x0E0
  · exact ⟨.cls, rfl, by rw [← hop, hcls]; rfl⟩
  by_cases hret : fieldNNN op = 0x0EE
  · exact ⟨.ret, rfl, by rw [← hop, hret]; rfl⟩
  exact ⟨.sys (fieldNNN op), Bool.and_eq_true_iff.2 ⟨bne_iff_ne.2 hcls, bne_iff_ne.2 hret⟩, hop⟩

/-- Family 8: n picks the operation. -/
theorem exists_encode_family8 (hp : familyOf op = 0x8) : ∃ i : Instr, i.wf = true ∧ encode i = op := by
  have hop := packXYN_of_family hp
  have hn : ∀ n : Nibble, n ∈ [0x8, 0x9, 0xA, 0xB, 0xC, 0xD, 0xF] ∨ n = 0x0 ∨ n = 0x1 ∨ n = 0x2 ∨ n = 0x3 ∨
      n = 0x4 ∨ n = 0x5 ∨ n = 0x6 ∨ n = 0x7 ∨ n = 0xE := by decide
  rcases hn (fieldN op) with h | h | h | h | h | h | h | h | h | h
  · exact ⟨.unknown op, isUnknownWord_iff.2 (.inl ⟨hp, h⟩), rfl⟩
  all_goals rw [h] at hop
  · exact ⟨.ldReg (fieldX op) (fieldY op), rfl, hop⟩
  · exact ⟨.orReg (fieldX op) (fieldY op), rfl, hop⟩
  · exact ⟨.andReg (fieldX op) (fieldY op), rfl, hop⟩
  · exact ⟨.xorReg (fieldX op) (fieldY op), rfl, hop⟩
  · exact ⟨.addReg (fieldX op) (fieldY op), rfl, hop⟩
  · exact ⟨.subReg (fieldX op) (fieldY op), rfl, hop⟩
  · exact ⟨.shr (fieldX op) (fieldY op), rfl, hop⟩
  · exact ⟨.subnReg (fieldX op) (fieldY op), rfl, hop⟩
  · exact ⟨.shl (fieldX op) (fieldY op), rfl, hop⟩

/-- Family E: nn picks the key skip. -/
theorem exists_encode_familyE (hp : familyOf op = 0xE) : ∃ i : Instr, i.wf = true ∧ encode i = op := by
  have hop := packXNN_of_family hp
  by_cases hnn : fieldNN op ∈ [0x9E, 0xA1]
  · simp only [List.mem_cons, List.not_mem_nil, or_false] at hnn
    rcases hnn with h | h <;> rw [h] at hop
    · exact ⟨.skp (fieldX op), rfl, hop⟩
    · exact ⟨.sknp (fieldX op), rfl, hop⟩
  · exact ⟨.unknown op, isUnknownWord_iff.2 (.inr (.inl ⟨hp, hnn⟩)), rfl⟩

/-- Family F: nn picks one of nine instructions. -/
theorem exists_encode_familyF (hp : familyOf op = 0xF) : ∃ i : Instr, i.wf = true ∧ encode i = op := by
  have hop := packXNN_of_family hp
  by_cases hnn : fieldNN op ∈ [0x07, 0x0A, 0x15, 0x18, 0x1E, 0x29, 0x33, 0x55, 0x65]
  · simp only [List.mem_cons, List.not_mem_nil, or_false] at hnn
    rcases hnn with h | h | h | h | h | h | h | h | h <;> rw [h] at hop
    · exact ⟨.ldVxDt (fieldX op), rfl, hop⟩
    · exact ⟨.ldVxK (fieldX op), rfl, hop⟩
    · exact ⟨.ldDtVx (fieldX op), rfl, hop⟩
    · exact ⟨.ldStVx (fieldX op), rfl, hop⟩
    · exact ⟨.addI (fieldX op), rfl, hop⟩
    · exact ⟨.ldF (fieldX op), rfl, hop⟩
    · exact ⟨.ldB (fieldX op), rfl, hop⟩
    · exact ⟨.storeRegs (fieldX op), rfl, hop⟩
    · exact ⟨.loadRegs (fieldX op), rfl, hop⟩
  · exact ⟨.unknown op, isUnknownWord_iff.2 (.inr (.inr ⟨hp, hnn⟩)), rfl⟩

/-- The encoder reaches every opcode, family by family. -/
theorem exists_encode_eq (op : Word) : ∃ i : Instr, i.wf = true ∧ encode i = op := by
  obtain ⟨p, hlt, hp⟩ : ∃ p < 16, familyOf op = BitVec.ofNat 4 p :=
    ⟨(familyOf op).toNat, (familyOf op).isLt, by rw [BitVec.ofNat_toNat, BitVec.setWidth_eq]⟩
  match p with
  | 0x0 => exact exists_encode_family0 hp
  | 0x1 => exact ⟨.jp (fieldNNN op), rfl, packNNN_of_family hp⟩
  | 0x2 => exact ⟨.call (fieldNNN op), rfl, packNNN_of_family hp⟩
  | 0x3 => exact ⟨.seImm (fieldX op) (fieldNN op), rfl, packXNN_of_family hp⟩
  | 0x4 => exact ⟨.sneImm (fieldX op) (fieldNN op), rfl, packXNN_of_family hp⟩
  | 0x5 => exact ⟨.seReg (fieldX op) (fieldY op) (fieldN op), rfl, packXYN_of_family hp⟩
  | 0x6 => exact ⟨.ldImm (fieldX op) (fieldNN op), rfl, packXNN_of_family hp⟩
  | 0x7 => exact ⟨.addImm (fieldX op) (fieldNN op), rfl, packXNN_of_family hp⟩
  | 0x8 => exact exists_encode_family8 hp
  | 0x9 => exact ⟨.sneReg (fieldX op) (fieldY op) (fieldN op), rfl, packXYN_of_family hp⟩
  | 0xA => exact ⟨.ldI (fieldNNN op), rfl, packNNN_of_family hp⟩
  | 0xB => exact ⟨.jpV0 (fieldNNN op), rfl, packNNN_of_family hp⟩
  | 0xC => exact ⟨.rnd (fieldX op) (fieldNN op), rfl, packXNN_of_family hp⟩
  | 0xD => exact ⟨.drw (fieldX op) (fieldY op) (fieldN op), rfl, packXYN_of_family hp⟩
  | 0xE => exact exists_encode_familyE hp
  | 0xF => exact exists_encode_familyF hp
  | _ + 16 => omega

/-- Decode undoes encode on well-formed instructions, and every opcode is the encoding of one: so encode undoes
decode. -/
theorem decodeWord_wf_and_encode (op : Word) : (decodeWord op).wf = true ∧ encode (decodeWord op) = op := by
  obtain ⟨i, hwf, rfl⟩ := exists_encode_eq op
  rw [decodeWord_encode hwf]
  exact ⟨hwf, rfl⟩

/-! ## The unassigned opcodes (R109) -/

theorem decodeWord_eq_unknown_iff : decodeWord op = .unknown op ↔ isUnknownWord op = true := by
  constructor
  · intro h
    have hwf := (decodeWord_wf_and_encode op).1
    rwa [h] at hwf
  · exact fun h => decodeWord_encode (i := .unknown op) h

theorem toNat_familyOf (op : Word) : (familyOf op).toNat = op.toNat / 0x1000 := by
  have := op.isLt
  rw [familyOf, BitVec.extractLsb'_toNat, Nat.shiftRight_eq_div_pow]
  omega

theorem toNat_fieldN (op : Word) : (fieldN op).toNat = op.toNat % 0x10 := BitVec.extractLsb'_toNat ..

theorem toNat_fieldNN (op : Word) : (fieldNN op).toNat = op.toNat % 0x100 := BitVec.extractLsb'_toNat ..

/-! ## Rows that accept one opcode (R108) -/

/-- Two rows that accept one opcode agree on the bits both examine. -/
theorem pattern_and_mask_of_accepts (hr : r.accepts op = true) (hq : q.accepts op = true) :
    r.pattern &&& q.mask = q.pattern &&& r.mask := by
  rw [← beq_iff_eq.1 hr, ← beq_iff_eq.1 hq, BitVec.and_assoc, BitVec.and_assoc, BitVec.and_comm r.mask]

/-- Of two rows of the table that agree on the bits both examine, the earlier is CLS or RET and the later SYS. -/
theorem opcodeTable_pairwise : opcodeTable.Pairwise fun r q =>
    r.pattern &&& q.mask = q.pattern &&& r.mask → (r.form = .cls ∨ r.form = .ret) ∧ q.form = .sys := by
  decide

end Sys2Proof

namespace Sys2Proof.Machine

variable {s t : State}

/-! ## UNKNOWN's step (R112) -/

theorem exec_unknown (op : Word) (s : State) : exec (.unknown op) s = .next s := rfl

theorem toNat_countDown (b : Byte) : (countDown b).toNat = b.toNat - 1 := by
  unfold countDown
  split <;> bv_omega

/-- The tick changes the timers alone (R253). -/
theorem unchangedBut_tick (s : State) : unchangedBut [.delay, .sound] s (tick s) := by
  intro p hp
  cases p with
  | delay | sound => simp at hp
  | _ => simp [Part.same]

/-- A cycle that fetches executes the instruction at PC. -/
theorem runCycle_of_canFetch (hc : canFetch s) (h : exec (decodeWord (opcodeAtPc s)) s = .next t) :
    runCycle s = .next (finishStep s.pc (decodeWord (opcodeAtPc s)) t) := by
  obtain ⟨hfault, hpc⟩ := hc
  rcases runCycle_cases s with ⟨hhalt, -⟩ | ⟨-, hgt, -⟩ | ⟨-, u, hu, hrun⟩
  · exact absurd hfault hhalt
  · omega
  · cases hu.symm.trans h
    exact hrun

theorem finishStep_of_no_fault (pc : Word) (i : Instr) (h : t.fault = none) :
    finishStep pc i t = (tick t, reportOf pc i) := by
  rw [finishStep, h]

end Sys2Proof.Machine

namespace Sys2Proof.Proofs

open Sys2Proof.Machine

/-- Settles O3, by the row the table selects for each constructor and the operands its form reads back. -/
theorem encodedInstructionDecodesToItself : Obligations.EncodedInstructionDecodesToItself := by
  intro i rest hwf
  rw [encodeBytes, decode_bytesOfWord_append, decodeWord_encode hwf]

/-- Settles O4: every opcode is the encoding of a well-formed instruction, which decoding gives back. -/
theorem decodedOpcodeEncodesToItself : Obligations.DecodedOpcodeEncodesToItself :=
  decodeWord_wf_and_encode

/-- Settles O5: UNKNOWN is well-formed exactly at the opcodes of R109's map, here with its fields as numbers. -/
theorem unknownOpcodesAreTheUnassignedOnes : Obligations.UnknownOpcodesAreTheUnassignedOnes := by
  intro op
  rw [decodeWord_eq_unknown_iff, isUnknownWord_iff]
  simp only [List.mem_cons, List.not_mem_nil, or_false, ← BitVec.toNat_inj, toNat_familyOf, toNat_fieldN,
    toNat_fieldNN, BitVec.reduceToNat]

/-- Settles O6: rows that accept one opcode agree on the bits both examine, and only those pairs do. -/
theorem onlyClsAndRetOverlapSys : Obligations.OnlyClsAndRetOverlapSys := by
  intro j k r q op hjk hr hq hraccepts hqaccepts
  obtain ⟨hj, rfl⟩ := List.getElem?_eq_some_iff.1 hr
  obtain ⟨hk, rfl⟩ := List.getElem?_eq_some_iff.1 hq
  exact List.pairwise_iff_getElem.1 opcodeTable_pairwise j k hj hk hjk
    (pattern_and_mask_of_accepts hraccepts hqaccepts)

/-- Settles O2: R110's opcodes are the encodings of the rows' instructions with every operand 0. -/
theorem canonicalOpcodesDecodeInOrder : Obligations.CanonicalOpcodesDecodeInOrder := by
  refine ⟨?_, ?_, ?_, ?_, rfl⟩
  all_goals exact map_decodeWord_of_map_encode (by decide) (by decide)

/-- Settles O17: UNKNOWN's execution is the state itself, so its step is the tick alone. -/
theorem unknownIsANoOpThatStays : Obligations.UnknownIsANoOpThatStays := by
  refine ⟨exec_unknown, fun s hc hunknown => ⟨tick s, ?_, toNat_countDown s.dt, toNat_countDown s.st,
    unchangedBut_tick s⟩⟩
  have hrun := runCycle_of_canFetch hc (t := s) (by rw [hunknown]; exact exec_unknown _ s)
  rw [hrun, hunknown, finishStep_of_no_fault _ _ hc.1]
  rfl

end Sys2Proof.Proofs

/-! PROOFS. 40_control_flow.md: where each control-flow instruction leaves PC and what it does to the call stack
(R140 to R148); nothing else changes, and a fault is fault entry alone (R272). -/

namespace Sys2Proof.Machine

variable {s : State}

/-! ## Frames -/

theorem unchangedBut_setPc (s : State) (w : Word) : unchangedBut [.pc] s (setPc s w) := by
  intro p hp
  cases p with
  | pc => simp at hp
  | _ => simp [Part.same]

/-- RET and CALL write PC, SP and at most the slots. -/
theorem unchangedBut_withPcAndStack (s : State) (pc : Word) (sp : Fin 17) (stack : Vector Word 16) :
    unchangedBut [.pc, .stack] s (setPc (withStack sp stack s) pc) := by
  intro p hp
  cases p with
  | pc | stack => simp at hp
  | faults => exact ⟨rfl, rfl, rfl, rfl⟩
  | framebuffer => exact fun _ _ => rfl
  | regs | keys | mem => exact fun _ => rfl
  | index | delay | sound | redraw | draws => rfl

theorem unchangedBut_takeFault (s : State) (op : Word) (r : Raise) :
    unchangedBut [.faults] s (takeFault s op r) := by
  intro p hp
  cases p with
  | faults => simp at hp
  | _ => simp [Part.same]

/-- Fault entry, as the state before it sees it (R272). -/
theorem faultedAs_takeFault (s : State) (op : Word) (r : Raise) :
    faultedAs r.kind r.addr.toNat s (takeFault s op r) :=
  ⟨rfl, rfl, rfl, unchangedBut_takeFault s op r⟩

/-! ## Where PC goes -/

theorem pcMoved_advance (s : State) : pcMoved 2 s (advance s) := BitVec.toNat_add s.pc 2

/-- A skip moves PC by 4 or by 2, as its test says, and does no more (R36). -/
theorem skipWhen_spec {c : Bool} {P : Prop} [Decidable P] (s : State) (hc : c = true ↔ P) :
    pcMoved (if P then 4 else 2) s (skipWhen c s) ∧ unchangedBut [.pc] s (skipWhen c s) := by
  refine ⟨?_, unchangedBut_setPc s _⟩
  by_cases hP : P
  · rw [if_pos hP, hc.2 hP]
    exact BitVec.toNat_add s.pc 4
  · rw [if_neg hP, Bool.eq_false_iff.2 (mt hc.1 hP)]
    exact BitVec.toNat_add s.pc 2

theorem beq_iff_toNat_eq (a b : Byte) : (a == b) = true ↔ a.toNat = b.toNat := by
  rw [beq_iff_eq, BitVec.toNat_inj]

theorem bne_iff_toNat_ne (a b : Byte) : (a != b) = true ↔ a.toNat ≠ b.toNat := by
  rw [bne_iff_ne, Ne, Ne, BitVec.toNat_inj]

theorem toNat_zext (nnn : Addr12) : (zext nnn).toNat = nnn.toNat :=
  BitVec.toNat_setWidth_of_le (by decide)

/-- The greatest sum of Bnnn fits in 16 bits (R148). -/
theorem toNat_jumpTarget (nnn : Addr12) (a : Byte) : (jumpTarget nnn a).toNat = nnn.toNat + a.toNat := by
  have := nnn.isLt
  have := a.isLt
  rw [jumpTarget, BitVec.toNat_ofNat]
  omega

/-! ## An instruction that can raise, by what its operation answers -/

theorem settle_map_of_eq_ok {α : Type} {op : Word} {e : Except Raise α} {f : α → State} {a : α}
    (h : e = .ok a) : settle op s (e.map f) = .next (f a) := by
  rw [h]
  rfl

theorem settle_map_of_eq_error {α : Type} {op : Word} {e : Except Raise α} {f : α → State} {r : Raise}
    (h : e = .error r) : settle op s (e.map f) = .next (takeFault s op r) := by
  rw [h]
  rfl

end Sys2Proof.Machine

namespace Sys2Proof.Proofs

open Sys2Proof.Machine

/-- Settles O18, by what the pop answers (`pop_cases`). -/
theorem retResumesAfterTheCall : Obligations.RetResumesAfterTheCall := by
  intro s
  rcases pop_cases s with ⟨hpos, u, hpop, hsp, hu⟩ | ⟨hzero, hpop⟩
  · refine ⟨fun _ => ⟨_, settle_map_of_eq_ok hpop, hsp, fun k => ?_, BitVec.toNat_add _ 2, ?_⟩, by omega⟩
    · rw [slot_setPc, hu]
      rfl
    · rw [hu]
      exact unchangedBut_withPcAndStack s _ u.sp s.stack
  · exact ⟨by omega, fun _ => ⟨_, settle_map_of_eq_error hpop, faultedAs_takeFault s _ _⟩⟩

/-- Settles O20, by what the push of PC answers (`push_cases`). -/
theorem callPushesItsOwnAddress : Obligations.CallPushesItsOwnAddress := by
  intro nnn s
  rcases push_cases s s.pc with ⟨hlt, u, hpush, hsp, hslot, hu⟩ | ⟨hfull, hpush⟩
  · refine ⟨fun _ => ⟨_, settle_map_of_eq_ok hpush, hsp, hslot, toNat_zext nnn, ?_⟩, by omega⟩
    rw [hu]
    exact unchangedBut_withPcAndStack s _ u.sp u.stack
  · exact ⟨by omega, fun _ => ⟨_, settle_map_of_eq_error hpush, faultedAs_takeFault s _ _⟩⟩

/-- Settles O16. -/
theorem sysOnlyAdvances : Obligations.SysOnlyAdvances :=
  fun _ s => ⟨advance s, rfl, pcMoved_advance s, unchangedBut_setPc s _⟩

/-- Settles O19: a 12-bit address is the same number in 16 bits. -/
theorem jumpGoesToItsAddress : Obligations.JumpGoesToItsAddress :=
  fun nnn s => ⟨setPc s (zext nnn), rfl, toNat_zext nnn, unchangedBut_setPc s _⟩

/-- Settles O21: both are skips (`skipWhen_spec`), on complementary tests. -/
theorem skipsOnAnImmediate : Obligations.SkipsOnAnImmediate :=
  fun _ _ s =>
  ⟨⟨_, rfl, skipWhen_spec s (beq_iff_toNat_eq _ _)⟩,
    ⟨_, rfl, skipWhen_spec s (bne_iff_toNat_ne _ _)⟩⟩

/-- Settles O22: both are skips (`skipWhen_spec`), on complementary tests that do not see `n`. -/
theorem skipsOnTwoRegisters : Obligations.SkipsOnTwoRegisters :=
  fun _ _ _ s =>
  ⟨⟨_, rfl, skipWhen_spec s (beq_iff_toNat_eq _ _)⟩,
    ⟨_, rfl, skipWhen_spec s (bne_iff_toNat_ne _ _)⟩⟩

/-- Settles O23: the sum fits in 16 bits (`toNat_jumpTarget`). -/
theorem jumpWithV0AddsV0 : Obligations.JumpWithV0AddsV0 :=
  fun nnn s => ⟨setPc s (jumpTarget nnn (getV s 0)), rfl, toNat_jumpTarget nnn _, unchangedBut_setPc s _⟩

end Sys2Proof.Proofs

/-! PROOFS. 41_alu.md: what each load, arithmetic, logic and shift instruction leaves in Vx and in VF, as numbers
(R170 to R180); nothing else changes but PC. -/

namespace Sys2Proof.Machine

variable (s : State) (x y : Nibble) (a b : Byte)

/-! ## The two shapes of an ALU instruction -/

/-- An ALU instruction that leaves `v` in the registers changes nothing else but PC. -/
theorem unchangedBut_advance_withRegs (v : Vector Byte 16) :
    unchangedBut [.regs, .pc] s (advance { s with v := v }) := by
  intro p hp
  cases p with
  | regs | pc => simp at hp
  | faults => exact ⟨rfl, rfl, rfl, rfl⟩
  | stack => exact ⟨rfl, fun _ => rfl⟩
  | framebuffer => exact fun _ _ => rfl
  | keys | mem => exact fun _ => rfl
  | index | delay | sound | redraw | draws => rfl

/-- One register written, and PC moved on: no other register, VF included (R170 to R175). -/
theorem advance_setV_frame :
    regsUnchangedBut [x] s (advance (setV s x b)) ∧ pcMoved 2 s (advance (setV s x b)) ∧
      unchangedBut [.regs, .pc] s (advance (setV s x b)) := by
  refine ⟨fun r hr => ?_, pcMoved_advance (setV s x b), unchangedBut_advance_withRegs s _⟩
  rw [getV_advance, getV_setV_ne s b (List.ne_of_not_mem_cons hr)]

/-- A flag, then a result, and PC moved on: both are of the old operands, and with x = 0xF the result stays
(R184). -/
theorem advance_flagThenResult_spec (flag result : Byte → Byte → Byte) {t : State}
    (ht : t = advance (flagThenResult .preOp flag result x y s)) :
    getV t x = result (getV s x) (getV s y) ∧ (x ≠ 0xF → getV t 0xF = flag (getV s x) (getV s y)) ∧
      regsUnchangedBut [x, 0xF] s t ∧ pcMoved 2 s t ∧ unchangedBut [.regs, .pc] s t := by
  subst ht
  obtain ⟨v, hv⟩ := flagThenResult_eq .preOp flag result x y s
  refine ⟨?_, fun hx => ?_, fun r hr => ?_, ?_, ?_⟩
  · rw [getV_advance, getV_flagThenResult_preOp, if_pos rfl]
  · rw [getV_advance, getV_flagThenResult_preOp, if_neg hx.symm]
    exact if_pos rfl
  · obtain ⟨hrx, hrvf⟩ : r ≠ x ∧ r ≠ vf := by simpa [vf] using hr
    rw [getV_advance, getV_flagThenResult_other _ _ _ _ _ _ hrx hrvf]
  · rw [hv]
    exact pcMoved_advance { s with v := v }
  · rw [hv]
    exact unchangedBut_advance_withRegs s v

/-! ## The flags, as numbers (R32) -/

theorem toNat_carryFlag : (carryFlag a b).toNat = if a.toNat + b.toNat > 255 then 1 else 0 := by
  rw [carryFlag, apply_ite BitVec.toNat]
  exact if_congr (by omega) rfl rfl

theorem toNat_greaterFlag : (greaterFlag a b).toNat = if a.toNat > b.toNat then 1 else 0 :=
  apply_ite BitVec.toNat _ _ _

theorem toNat_notGreaterFlag : (notGreaterFlag a b).toNat = if a.toNat > b.toNat then 0 else 1 :=
  apply_ite BitVec.toNat _ _ _

theorem toNat_lowBitFlag : (lowBitFlag a).toNat = a.toNat % 2 := by
  rw [lowBitFlag, BitVec.toNat_and]
  exact Nat.and_one_is_mod _

/-- Bit 7 keeps its place, and a byte has it exactly from 0x80 up (R180). -/
theorem toNat_highBitFlag : (highBitFlag a).toNat = if a.toNat ≥ 0x80 then 0x80 else 0x00 := by
  have hbit : a.toNat.testBit 7 = decide (a.toNat ≥ 0x80) := BitVec.msb_eq_decide a
  have hand : (highBitFlag a).toNat = (a.toNat.testBit 7).toNat * 2 ^ 7 := Nat.and_two_pow a.toNat 7
  rw [hand, hbit]
  by_cases h : a.toNat ≥ 0x80 <;> simp [h]

/-! ## The results, as numbers (R182) -/

/-- A difference mod 256 is that of the integers. -/
theorem toNat_sub_eq_emod : ((a - b).toNat : Int) = (a.toNat - b.toNat : Int) % 256 := by
  have := b.isLt
  rw [BitVec.toNat_sub]
  omega

theorem toNat_shiftLeft_one : (a <<< 1).toNat = a.toNat * 2 % 256 := by
  rw [BitVec.toNat_shiftLeft, Nat.shiftLeft_eq]

theorem toNat_ushiftRight_one : (a >>> 1).toNat = a.toNat / 2 := by
  rw [BitVec.toNat_ushiftRight, Nat.shiftRight_eq_div_pow]

end Sys2Proof.Machine

namespace Sys2Proof.Proofs

open Sys2Proof.Machine

/-- Settles O27: the carry's test 255 - a < b is a + b > 255. -/
theorem addSetsTheCarry : Obligations.AddSetsTheCarry := by
  intro x y s
  obtain ⟨hresult, hflag, hframe⟩ := advance_flagThenResult_spec s x y carryFlag (fun a b => a + b) rfl
  refine ⟨_, rfl, ?_, fun hx => ?_, hframe⟩
  · exact (congrArg BitVec.toNat hresult).trans (BitVec.toNat_add _ _)
  · exact (congrArg BitVec.toNat (hflag hx)).trans (toNat_carryFlag _ _)

/-- Settles O28: the difference of the old operands, with a strict comparison for a flag. -/
theorem subSetsGreater : Obligations.SubSetsGreater := by
  intro x y s
  obtain ⟨hresult, hflag, hframe⟩ := advance_flagThenResult_spec s x y greaterFlag (fun a b => a - b) rfl
  refine ⟨_, rfl, ?_, fun hx => ?_, hframe⟩
  · exact (congrArg (fun c : Byte => (c.toNat : Int)) hresult).trans (toNat_sub_eq_emod _ _)
  · exact (congrArg BitVec.toNat (hflag hx)).trans (toNat_greaterFlag _ _)

/-- Settles O29, by the direction of the mode. -/
theorem shrShiftsAsItsModeSays : Obligations.ShrShiftsAsItsModeSays := by
  refine ⟨fun _ _ _ => rfl, fun mode x s t ht => ?_⟩
  obtain ⟨hresult, hflag, hframe⟩ :=
    advance_flagThenResult_spec s x x (fun a _ => lowBitFlag a) (fun a _ => shrResult mode a) ht
  refine ⟨?_, fun hx => ?_, hframe⟩
  · rw [hresult]
    cases mode with
    | observed => exact toNat_shiftLeft_one _
    | rightShift => exact toNat_ushiftRight_one _
  · rw [hflag hx, toNat_lowBitFlag]

/-- Settles O30: SUB's difference, with the complement of its comparison for a flag. -/
theorem subnSetsNotGreater : Obligations.SubnSetsNotGreater := by
  intro x y s
  obtain ⟨hresult, hflag, hframe⟩ := advance_flagThenResult_spec s x y notGreaterFlag (fun a b => a - b) rfl
  refine ⟨_, rfl, ?_, fun hx => ?_, hframe⟩
  · exact (congrArg (fun c : Byte => (c.toNat : Int)) hresult).trans (toNat_sub_eq_emod _ _)
  · exact (congrArg BitVec.toNat (hflag hx)).trans (toNat_notGreaterFlag _ _)

/-- Settles O31: the bit shifted out stays in its place in the flag (`toNat_highBitFlag`). -/
theorem shlKeepsBitSevenInPlace : Obligations.ShlKeepsBitSevenInPlace := by
  intro x y s
  obtain ⟨hresult, hflag, hframe⟩ :=
    advance_flagThenResult_spec s x x (fun a _ => highBitFlag a) (fun a _ => a <<< 1) rfl
  refine ⟨_, rfl, ?_, fun hx => ?_, hframe⟩
  · exact (congrArg BitVec.toNat hresult).trans (toNat_shiftLeft_one _)
  · exact (congrArg BitVec.toNat (hflag hx)).trans (toNat_highBitFlag _)

/-- Settles O24: both are one register write. -/
theorem registerLoads : Obligations.RegisterLoads :=
  fun x y nn s =>
  ⟨⟨_, rfl, getV_setV_self s x nn, advance_setV_frame s x nn⟩,
    ⟨_, rfl, getV_setV_self s x (getV s y), advance_setV_frame s x (getV s y)⟩⟩

/-- Settles O25: one register write, of a sum that wraps. -/
theorem addImmediateWrapsWithoutACarry : Obligations.AddImmediateWrapsWithoutACarry := by
  intro x nn s
  refine ⟨_, rfl, ?_, advance_setV_frame s x (getV s x + nn)⟩
  rw [getV_advance, getV_setV_self, BitVec.toNat_add]

/-- Settles O26: each is one register write, of the bitwise operation on the old operands. -/
theorem logicIsBitwise : Obligations.LogicIsBitwise := by
  intro x y s
  refine ⟨⟨_, rfl, fun k => ?_, advance_setV_frame s x (getV s x ||| getV s y)⟩,
    ⟨_, rfl, fun k => ?_, advance_setV_frame s x (getV s x &&& getV s y)⟩,
    ⟨_, rfl, fun k => ?_, advance_setV_frame s x (getV s x ^^^ getV s y)⟩⟩
  · rw [getV_advance, getV_setV_self, BitVec.getLsbD_or]
  · rw [getV_advance, getV_setV_self, BitVec.getLsbD_and]
  · rw [getV_advance, getV_setV_self, BitVec.getLsbD_xor]

end Sys2Proof.Proofs

/-! PROOFS. 42_index_memory.md: what the index instructions leave in I (R200, R201, R203), and the transfers of V0
to Vx to and from memory, whole or not at all (R205, R206, R16). -/

namespace Sys2Proof.Machine

variable {s t u : State}

/-! ## Frames -/

theorem Part.same_trans {p : Part} (hst : p.same s t) (htu : p.same t u) : p.same s u := by
  cases p with
  | stack => exact ⟨htu.1.trans hst.1, fun k => (htu.2 k).trans (hst.2 k)⟩
  | framebuffer => exact fun idx hidx => (htu idx hidx).trans (hst idx hidx)
  | faults =>
    obtain ⟨hfault, hpc, hop, haddr⟩ := hst
    obtain ⟨hfault', hpc', hop', haddr'⟩ := htu
    exact ⟨hfault'.trans hfault, hpc'.trans hpc, hop'.trans hop, haddr'.trans haddr⟩
  | regs | keys | mem => exact fun k => (htu k).trans (hst k)
  | index | pc | delay | sound | redraw | draws => exact Eq.trans htu hst

/-- Two writes in a row change at most what either changes. -/
theorem unchangedBut_append {l l' : List Part} (hst : unchangedBut l s t) (htu : unchangedBut l' t u) :
    unchangedBut (l ++ l') s u := by
  intro p hp
  obtain ⟨hl, hl'⟩ := not_or.1 (mt List.mem_append.2 hp)
  exact Part.same_trans (hst p hl) (htu p hl')

/-- What PC's move adds to the frame of the writes before it. -/
theorem unchangedBut_advance {l : List Part} (h : unchangedBut l s t) : unchangedBut (l ++ [.pc]) s (advance t) :=
  unchangedBut_append h (unchangedBut_setPc t _)

theorem unchangedBut_setI (s : State) (w : Word) : unchangedBut [.index] s (setI s w) := by
  intro p hp
  cases p with
  | index => simp at hp
  | _ => simp [Part.same]

theorem unchangedBut_setV (s : State) (x : Nibble) (b : Byte) : unchangedBut [.regs] s (setV s x b) := by
  intro p hp
  cases p with
  | regs => simp at hp
  | _ => simp [Part.same]

theorem unchangedBut_setRegs (s : State) (k : Nat) (bs : List Byte) : unchangedBut [.regs] s (setRegs s k bs) := by
  induction bs generalizing s k with
  | nil =>
    intro p _
    cases p <;> simp [setRegs, Part.same]
  | cons b bs ih => exact fun p hp => Part.same_trans (unchangedBut_setV s _ b p hp) (ih _ _ p hp)

/-! ## The index register -/

/-- The glyph address fits in 16 bits for every Vx, a digit or not (R203). -/
theorem toNat_glyphAddress (a : Byte) : (glyphAddress a).toNat = 0x050 + a.toNat * 5 := by
  have := a.isLt
  rw [glyphAddress, BitVec.toNat_ofNat]
  simp only [Config.fontBase, Config.glyphSize]
  omega

/-- The sum of ADD I, Vx is kept to 16 bits (R201). -/
theorem toNat_add_setWidth (w : Word) (a : Byte) : (w + a.setWidth 16).toNat = (w.toNat + a.toNat) % 65536 := by
  rw [BitVec.toNat_add, BitVec.toNat_setWidth_of_le (by decide)]

/-- I written, and PC moved on. -/
theorem advance_setI_frame (s : State) (w : Word) :
    pcMoved 2 s (advance (setI s w)) ∧ unchangedBut [.index, .pc] s (advance (setI s w)) :=
  ⟨pcMoved_advance (setI s w), unchangedBut_advance (unchangedBut_setI s w)⟩

/-! ## Transfers at I -/

/-- Fault entry of a transfer from I up: FAULT_ADDR is the least address out of range (R270). -/
theorem faultedAs_dataBounds (s : State) (op : Word) :
    faultedAs .dataBounds (max s.i.toNat 0x1000) s
      (takeFault s op ⟨.dataBounds, BitVec.ofNat 16 (max s.i.toNat 4096)⟩) := by
  have haddr : (BitVec.ofNat 16 (max s.i.toNat 4096)).toNat = max s.i.toNat 4096 := by
    rw [BitVec.toNat_ofNat, Nat.mod_eq_of_lt (Nat.max_lt.2 ⟨s.i.isLt, by decide⟩)]
  exact ⟨rfl, rfl, haddr, unchangedBut_takeFault s op _⟩

/-- A store of bytes from I up that stays inside memory puts each at its address, and writes no other. -/
theorem settle_storeBytes_of_le (op : Word) {bs : List Byte} (h : s.i.toNat + bs.length ≤ 0x1000) :
    ∃ t, settle op s ((storeBytes s s.i.toNat bs).map advance) = .next t ∧
      (∀ k, k < bs.length → byteAt t (s.i.toNat + k) = bs.getD k 0) ∧
      memUnchangedOutside s.i.toNat bs.length s t ∧ pcMoved 2 s t ∧ unchangedBut [.mem, .pc] s t := by
  rcases storeBytes_cases bs s s.i.toNat with ⟨-, m, hok, -, hlookup⟩ | ⟨-, hgt, -⟩
  · refine ⟨advance (setMem s m), settle_map_of_eq_ok hok, fun k hk => ?_, fun c hc => ?_,
      pcMoved_advance (setMem s m), unchangedBut_advance (unchangedBut_setMem s m)⟩
    · rw [byteAt_advance, byteAt_setMem, hlookup, if_pos (by omega), Nat.add_sub_cancel_left]
    · rw [byteAt_advance, byteAt_setMem, hlookup, if_neg hc]
  · omega

/-- A store of bytes from I up that leaves memory is fault entry alone. -/
theorem settle_storeBytes_of_gt (op : Word) {bs : List Byte} (hbs : bs ≠ []) (h : 0x1000 < s.i.toNat + bs.length) :
    ∃ t, settle op s ((storeBytes s s.i.toNat bs).map advance) = .next t ∧
      faultedAs .dataBounds (max s.i.toNat 0x1000) s t := by
  rcases storeBytes_cases bs s s.i.toNat with ⟨hin, -⟩ | ⟨-, -, herr⟩
  · exact absurd h (Nat.not_lt.2 (hin.resolve_left hbs))
  · exact ⟨_, settle_map_of_eq_error herr, faultedAs_dataBounds s op⟩

/-- Fx55's byte at I + r is Vr (R205). -/
theorem regsUpTo_getD_toNat (s : State) {x r : Nibble} (h : r.toNat ≤ x.toNat) :
    (regsUpTo s x).getD r.toNat 0 = getV s r := by
  rw [regsUpTo_getD s x r.toNat h, BitVec.ofNat_toNat, BitVec.setWidth_eq]

/-- V0 to Vx take the bytes from `a` up; the registers after Vx keep theirs (R206). -/
theorem getV_setRegs_memory (s : State) (a : Nat) (x r : Nibble) :
    getV (setRegs s 0 ((List.range (x.toNat + 1)).map fun k => byteAt s (a + k))) r =
      if r.toNat ≤ x.toNat then byteAt s (a + r.toNat) else getV s r := by
  rw [getV_setRegs _ _ _ _ (by simpa using Nat.succ_le_of_lt x.isLt)]
  by_cases hr : r.toNat ≤ x.toNat
  · have hr' : r.toNat < x.toNat + 1 := by omega
    simp [hr, hr', List.getD_eq_getElem?_getD]
  · simp [hr]

/-- Fx65's end: registers loaded, I replaced and PC moved on. -/
theorem unchangedBut_advance_setI_setRegs (s : State) (k : Nat) (bs : List Byte) (w : Word) :
    unchangedBut [.regs, .index, .pc] s (advance (setI (setRegs s k bs) w)) :=
  unchangedBut_advance (unchangedBut_append (unchangedBut_setRegs s k bs) (unchangedBut_setI _ w))

theorem pcMoved_advance_setI_setRegs (s : State) (k : Nat) (bs : List Byte) (w : Word) :
    pcMoved 2 s (advance (setI (setRegs s k bs) w)) := by
  have hpc : (setRegs s k bs).pc = s.pc := unchangedBut_setRegs s k bs .pc (by decide)
  rw [pcMoved, ← hpc]
  exact pcMoved_advance (setI (setRegs s k bs) w)

end Sys2Proof.Machine

namespace Sys2Proof.Proofs

open Sys2Proof.Machine

/-- Settles O36, by whether the x + 1 registers fit in memory from I up. -/
theorem storeWritesTheRegisters : Obligations.StoreWritesTheRegisters := by
  intro x s
  have hlen := regsUpTo_length s x
  refine ⟨fun hin => ?_, fun hout => ?_⟩
  · obtain ⟨t, hexec, hbytes, hframe⟩ :=
      settle_storeBytes_of_le (s := s) (encode (.storeRegs x)) (bs := regsUpTo s x) (by omega)
    rw [hlen] at hbytes hframe
    refine ⟨t, hexec, fun r hr => ?_, hframe⟩
    rw [hbytes r.toNat (by omega), regsUpTo_getD_toNat s hr]
  · exact settle_storeBytes_of_gt _ (List.ne_nil_of_length_pos (by omega)) (by omega)

/-- Settles O37, by what the read of x + 1 bytes from I up answers (`loadBytes_cases`). -/
theorem loadReadsTheRegisters : Obligations.LoadReadsTheRegisters := by
  intro x s
  rcases loadBytes_cases s (x.toNat + 1) s.i.toNat with ⟨hin, hok⟩ | ⟨-, hout, herr⟩
  · refine ⟨fun _ => ⟨_, settle_map_of_eq_ok hok, fun r => ?_, BitVec.toNat_ofNat _ 16,
      pcMoved_advance_setI_setRegs s 0 _ _, unchangedBut_advance_setI_setRegs s 0 _ _⟩, by omega⟩
    rw [getV_advance, getV_setI, getV_setRegs_memory]
  · exact ⟨by omega, fun _ => ⟨_, settle_map_of_eq_error herr, faultedAs_dataBounds s _⟩⟩

/-- Settles O34: each is one write of I. -/
theorem indexRegisterWrites : Obligations.IndexRegisterWrites :=
  fun nnn x s =>
  ⟨⟨_, rfl, toNat_zext nnn, advance_setI_frame s _⟩,
    ⟨_, rfl, toNat_add_setWidth s.i (getV s x), advance_setI_frame s _⟩,
    ⟨_, rfl, toNat_glyphAddress (getV s x), advance_setI_frame s _⟩⟩

end Sys2Proof.Proofs

/-! PROOFS. 43_display.md: CLS (R220, R221), and DRW as one state, `drawn`, that its reads of memory allow or not:
what that state's cells, VF and frame are (R222, R223), and that drawing into it again undoes it. -/

namespace Sys2Proof.Machine

/-! ## Frames -/

theorem unchangedBut_mono {l l' : List Part} {s t : State} (hsub : l ⊆ l') (h : unchangedBut l s t) :
    unchangedBut l' s t :=
  fun p hp => h p (mt (@hsub p) hp)

theorem unchangedBut_setFb (s : State) (f : Framebuffer) : unchangedBut [.framebuffer] s (setFb s f) := by
  intro p hp
  cases p with
  | framebuffer => simp at hp
  | _ => simp [Part.same]

theorem unchangedBut_setRedraw (s : State) (b : Bool) : unchangedBut [.redraw] s (setRedraw s b) := by
  intro p hp
  cases p with
  | redraw => simp at hp
  | _ => simp [Part.same]

/-! ## What DRW answers -/

section Draw

variable (mode : Config.DrwCollision) (x y n : Nibble) (s : State)

/-- The rows DRW reads, at I and up (R222, D2). -/
def spriteRows : List Byte := (List.range n.toNat).map fun r => byteAt s (s.i.toNat + r)

/-- The state DRW ends in when its rows are in memory (R222). -/
def drawn : State := advance (setRedraw (blit mode (getV s x) (getV s y) (spriteRows n s) s) true)

/-- No row is read, or the last one is below 0x1000 (R222). -/
theorem drawWith_of_le (h : n.toNat = 0 ∨ s.i.toNat + n.toNat ≤ 0x1000) :
    drawWith mode x y n s = .ok (drawn mode x y n s) := by
  rcases loadBytes_cases s n.toNat s.i.toNat with ⟨-, hok⟩ | ⟨hpos, hgt, -⟩
  · rw [drawWith, hok]
    rfl
  · omega

theorem drawWith_of_gt (hpos : 0 < n.toNat) (h : 0x1000 < s.i.toNat + n.toNat) :
    drawWith mode x y n s = .error ⟨.dataBounds, BitVec.ofNat 16 (max s.i.toNat 4096)⟩ := by
  rcases loadBytes_cases s n.toNat s.i.toNat with ⟨hin, -⟩ | ⟨-, -, herr⟩
  · omega
  · rw [drawWith, herr]
    rfl

theorem exec_drw : exec (.drw x y n) s = settle (encode (.drw x y n)) s (drawWith .anyLitPixel x y n s) := rfl

theorem exec_drw_of_le (h : n.toNat = 0 ∨ s.i.toNat + n.toNat ≤ 0x1000) :
    exec (.drw x y n) s = .next (drawn .anyLitPixel x y n s) := by
  rw [exec_drw, drawWith_of_le _ x y n s h, settle_ok]

/-! ## The frame of DRW -/

theorem pcMoved_drawn : pcMoved 2 s (drawn mode x y n s) := BitVec.toNat_add s.pc 2

theorem unchangedBut_drawn : unchangedBut [.framebuffer, .redraw, .regs, .pc] s (drawn mode x y n s) := by
  have hblit : unchangedBut [.framebuffer, .regs] s (blit mode (getV s x) (getV s y) (spriteRows n s) s) := by
    obtain ⟨f, b, hfb⟩ := blit_eq mode (getV s x) (getV s y) (spriteRows n s) s
    rw [hfb]
    exact unchangedBut_append (unchangedBut_setFb s f) (unchangedBut_setV _ vf b)
  exact unchangedBut_mono (by decide)
    (unchangedBut_advance (unchangedBut_append hblit (unchangedBut_setRedraw _ true)))

/-- DRW writes no register but VF (R32). -/
theorem getV_drawn_of_ne {r : Nibble} (hr : r ≠ 0xF) : getV (drawn mode x y n s) r = getV s r :=
  getV_setV_ne _ _ hr

@[simp] theorem drawn_i : (drawn mode x y n s).i = s.i := rfl

@[simp] theorem byteAt_drawn (a : Nat) : byteAt (drawn mode x y n s) a = byteAt s a := rfl

/-! ## The cells and VF after DRW -/

@[simp] theorem length_spriteRows : (spriteRows n s).length = n.toNat := by simp [spriteRows]

theorem getD_spriteRows {r : Nat} (hr : r < n.toNat) : (spriteRows n s).getD r 0 = byteAt s (s.i.toNat + r) := by
  simp [spriteRows, List.getD_eq_getElem?_getD, hr]

theorem collides_iff (old bit : Bool) :
    collides mode old bit = true ↔ old = true ∧ (mode = .setBitsOnly → bit = true) := by
  cases mode <;> simp [collides]

/-- `blit_spec` for the rows that DRW reads, which are at most 15. -/
theorem drawn_spec :
    (∀ r c, r < n.toNat → c < 8 →
      fbCell (drawn mode x y n s).fb (spriteCell (getV s x) (getV s y) r c) =
        (fbCell s.fb (spriteCell (getV s x) (getV s y) r c) ^^ spriteBit (byteAt s (s.i.toNat + r)) c)) ∧
    (∀ idx, idx < 2048 → (∀ r c, r < n.toNat → c < 8 → spriteCell (getV s x) (getV s y) r c ≠ idx) →
      fbCell (drawn mode x y n s).fb idx = fbCell s.fb idx) ∧
    ((∃ r c, r < n.toNat ∧ c < 8 ∧ fbCell s.fb (spriteCell (getV s x) (getV s y) r c) = true ∧
        (mode = .setBitsOnly → spriteBit (byteAt s (s.i.toNat + r)) c = true)) →
      getV (drawn mode x y n s) 0xF = 1) ∧
    ((¬∃ r c, r < n.toNat ∧ c < 8 ∧ fbCell s.fb (spriteCell (getV s x) (getV s y) r c) = true ∧
        (mode = .setBitsOnly → spriteBit (byteAt s (s.i.toNat + r)) c = true)) →
      getV (drawn mode x y n s) 0xF = 0) := by
  obtain ⟨hvisited, hother, hlit, hunlit⟩ :=
    blit_spec mode (getV s x) (getV s y) (spriteRows n s) s (by have := n.isLt; rw [length_spriteRows]; omega)
  rw [length_spriteRows] at hvisited hother hlit hunlit
  refine ⟨fun r c hr hc => ?_, hother, fun ⟨r, c, hr, hc, hcol⟩ => hlit ⟨r, c, hr, hc, ?_⟩,
    fun hno => hunlit fun r c hr hc => ?_⟩
  · rw [← getD_spriteRows n s hr]
    exact hvisited r c hr hc
  · rw [getD_spriteRows n s hr]
    exact (collides_iff mode _ _).2 hcol
  · rw [getD_spriteRows n s hr]
    exact Bool.eq_false_iff.2 fun hcol => hno ⟨r, c, hr, hc, (collides_iff mode _ _).1 hcol⟩

/-- A second DRW visits the same cells with the same bits, so each cell is XORed twice or not at all. -/
theorem fbCell_drawn_drawn (hx : x ≠ 0xF) (hy : y ≠ 0xF) {idx : Nat} (hidx : idx < 2048) :
    fbCell (drawn mode x y n (drawn mode x y n s)).fb idx = fbCell s.fb idx := by
  obtain ⟨hvisited, hother, -⟩ := drawn_spec mode x y n s
  obtain ⟨hvisited', hother', -⟩ := drawn_spec mode x y n (drawn mode x y n s)
  rw [getV_drawn_of_ne mode x y n s hx, getV_drawn_of_ne mode x y n s hy] at hvisited' hother'
  by_cases h : ∃ r c, r < n.toNat ∧ c < 8 ∧ spriteCell (getV s x) (getV s y) r c = idx
  · obtain ⟨r, c, hr, hc, rfl⟩ := h
    rw [hvisited' r c hr hc, hvisited r c hr hc, byteAt_drawn, drawn_i, Bool.xor_assoc, Bool.xor_self,
      Bool.xor_false]
  · have hout : ∀ r c, r < n.toNat → c < 8 → spriteCell (getV s x) (getV s y) r c ≠ idx :=
      fun r c hr hc he => h ⟨r, c, hr, hc, he⟩
    rw [hother' idx hidx hout, hother idx hidx hout]

end Draw

end Sys2Proof.Machine

namespace Sys2Proof.Proofs

open Sys2Proof.Machine

/-- Settles O40: the cleared framebuffer reads 0 at every cell. -/
theorem clsClearsEveryCell : Obligations.ClsClearsEveryCell := by
  intro s
  refine ⟨_, rfl, fun idx _ => fbCell_clearedFb idx, rfl, BitVec.toNat_add s.pc 2, ?_⟩
  exact unchangedBut_advance (unchangedBut_append (unchangedBut_setFb s _) (unchangedBut_setRedraw _ true))

/-- Settles O41, by whether the rows are in memory; the cells and VF are `drawn_spec`'s. -/
theorem drwXorsTheSprite : Obligations.DrwXorsTheSprite := by
  refine ⟨exec_drw, fun mode x y n s => ⟨fun hin => ?_, fun hpos hout => ?_⟩⟩
  · obtain ⟨hvisited, hother, hlit, hunlit⟩ := drawn_spec mode x y n s
    exact ⟨drawn mode x y n s, drawWith_of_le mode x y n s hin, hvisited, hother, hlit, hunlit, rfl,
      fun r hr => getV_drawn_of_ne mode x y n s (List.ne_of_not_mem_cons hr),
      pcMoved_drawn mode x y n s, unchangedBut_drawn mode x y n s⟩
  · exact ⟨_, drawWith_of_gt mode x y n s hpos hout, faultedAs_dataBounds s _⟩

/-- Settles O42: under the default test a collision is a visited lit cell, whatever its sprite bit. -/
theorem drwCompletesAndReportsLitCells : Obligations.DrwCompletesAndReportsLitCells := by
  intro x y n s hin
  obtain ⟨-, -, hlit, hunlit⟩ := drawn_spec .anyLitPixel x y n s
  refine ⟨drawn .anyLitPixel x y n s, exec_drw_of_le x y n s hin, rfl, rfl, rfl,
    pcMoved_drawn .anyLitPixel x y n s, fun ⟨r, c, hr, hc, hcell⟩ => ?_, fun hno => ?_⟩
  · exact hlit ⟨r, c, hr, hc, hcell, nofun⟩
  · refine hunlit fun ⟨r, c, hr, hc, hcell, _⟩ => ?_
    exact Bool.noConfusion ((hno r c hr hc).symm.trans hcell)

/-- Settles O43: the first DRW keeps I, so the second completes, and undoes it (`fbCell_drawn_drawn`). -/
theorem drawingTwiceRestoresTheFramebuffer : Obligations.DrawingTwiceRestoresTheFramebuffer := by
  intro x y n s t hx hy hin hexec
  obtain rfl : drawn .anyLitPixel x y n s = t := by simpa [exec_drw_of_le x y n s hin] using hexec
  exact ⟨_, exec_drw_of_le x y n _ hin, fun _ hidx => fbCell_drawn_drawn .anyLitPixel x y n s hx hy hidx⟩

end Sys2Proof.Proofs

/-! PROOFS. 44_timers_input.md: the tick (R253), where the timers stand when a step that moves one ends (R255), and
the key skips (R240, R241). -/

namespace Sys2Proof.Machine

variable {s t : State}

/-! ## A step at an instruction's opcode -/

/-- With a well-formed instruction's opcode at PC, a step that raises no fault is its execution and then the tick
(R120). -/
theorem step_of_opcodeAtPc_eq_encode {i : Instr} (hc : canFetch s) (hwf : i.wf = true)
    (hop : opcodeAtPc s = encode i) (hexec : exec i s = .next t) (hfault : t.fault = none) :
    step s = .next (tick t) := by
  have hdecode : decodeWord (opcodeAtPc s) = i := by rw [hop, decodeWord_encode hwf]
  have hrun := runCycle_of_canFetch hc (t := t) (by rw [hdecode, hexec])
  rw [step, hrun, finishStep_of_no_fault _ _ hfault]
  rfl

/-! ## Key skips -/

/-- A skip on a clear bit is the skip with the two distances exchanged. -/
theorem skipWhen_not_spec (s : State) (c : Bool) :
    pcMoved (if c = true then 2 else 4) s (skipWhen (!c) s) ∧ unchangedBut [.pc] s (skipWhen (!c) s) := by
  rw [← ite_not]
  exact skipWhen_spec s (by simp)

/-- The KeyIndex fault, as the state before it sees it: FAULT_ADDR is the key index itself (R270). -/
theorem faultedAs_keyIndex (s : State) (op : Word) (k : Byte) :
    faultedAs .keyIndex k.toNat s (takeFault s op ⟨.keyIndex, k.setWidth 16⟩) := by
  have haddr : (k.setWidth 16).toNat = k.toNat := BitVec.toNat_setWidth_of_le (by decide)
  exact haddr ▸ faultedAs_takeFault s op ⟨.keyIndex, k.setWidth 16⟩

end Sys2Proof.Machine

namespace Sys2Proof.Proofs

open Sys2Proof.Machine

/-- Settles O14. -/
theorem tickLowersEachTimerToAFloorOfZero : Obligations.TickLowersEachTimerToAFloorOfZero :=
  fun s => ⟨toNat_countDown s.st, toNat_countDown s.dt, unchangedBut_tick s⟩

/-- Settles O15: none of the three can fault, so the tick runs on what each wrote
(`step_of_opcodeAtPc_eq_encode`). -/
theorem timerValuesAtTheEndOfTheirStep : Obligations.TimerValuesAtTheEndOfTheirStep := by
  intro s x hc
  refine ⟨fun hop => ?setDelay, fun hop => ?setSound, fun hop => ?readDelay⟩
  case setDelay =>
    exact ⟨_, step_of_opcodeAtPc_eq_encode hc rfl hop rfl hc.1, toNat_countDown (getV s x), toNat_countDown s.st⟩
  case setSound =>
    exact ⟨_, step_of_opcodeAtPc_eq_encode hc rfl hop rfl hc.1, toNat_countDown (getV s x), toNat_countDown s.dt⟩
  case readDelay =>
    exact ⟨_, step_of_opcodeAtPc_eq_encode hc rfl hop rfl hc.1, getV_setV_self s x s.dt, toNat_countDown s.dt,
      toNat_countDown s.st⟩

/-- Settles O44: a key index in range reads the latch (`keyRead_of_le`) and the skip goes by it; one above 15
raises KeyIndex (`keyRead_of_gt`). -/
theorem keySkipsReadTheLatch : Obligations.KeySkipsReadTheLatch := by
  intro x s
  refine ⟨fun hle => ?inRange, fun hgt => ?outOfRange⟩
  case inRange =>
    have hread := keyRead_of_le (s := s) hle
    exact ⟨⟨_, settle_map_of_eq_ok hread, skipWhen_spec s Iff.rfl⟩,
      ⟨_, settle_map_of_eq_ok hread, skipWhen_not_spec s _⟩⟩
  case outOfRange =>
    have hread := keyRead_of_gt (s := s) hgt
    exact ⟨⟨_, settle_map_of_eq_error hread, faultedAs_keyIndex s _ _⟩,
      ⟨_, settle_map_of_eq_error hread, faultedAs_keyIndex s _ _⟩⟩

end Sys2Proof.Proofs

/-! PROOFS. 60_exceptions.md: what each operation of the host writes (R82, R292 to R295, R297), and that none but
reset changes the record of a fault (R275). -/

namespace Sys2Proof.Machine

variable {s : State}

/-! ## The key latch (R292) -/

/-- Any slot after the host's write of one the latch has. -/
theorem keyAt_setKeyAt {k : Nat} (hk : k ≤ 15) (pressed : Bool) (j : Nat) :
    keyAt (setKeyAt s k pressed) j = if j = k then pressed else keyAt s j := by
  have hbound : k < 16 := Nat.lt_succ_of_le hk
  rw [keyAt, setKeyAt_keys, Vector.getElem?_setIfInBounds]
  by_cases hj : j = k
  · simp [hj, hbound]
  · simp [hj, Ne.symm hj, keyAt]

theorem unchangedBut_setKeyAt (s : State) (k : Nat) (pressed : Bool) :
    unchangedBut [.keys] s (setKeyAt s k pressed) := by
  intro p hp
  cases p with
  | keys => simp at hp
  | _ => simp [Part.same]

theorem setKey_of_le {k : Nat} {pressed : Bool} (h : k ≤ 15) :
    setKey k pressed s = (setKeyAt s k pressed, .ok) := if_pos h

theorem setKey_of_gt {k : Nat} {pressed : Bool} (h : 15 < k) : setKey k pressed s = (s, .rejected) :=
  if_neg (Nat.not_le.2 h)

/-! ## The framebuffer's cells, row-major (R293) -/

/-- A cell on the screen has its place among the 2048. -/
theorem getElem?_map_fbCell_range (f : Framebuffer) {x y : Nat} (hx : x < 64) (hy : y < 32) :
    ((List.range 2048).map (fbCell f))[y * 64 + x]? = some (fbCell f (y * 64 + x)) := by
  have hplace : y * 64 + x < 2048 := by omega
  rw [List.getElem?_map, List.getElem?_range hplace, Option.map_some]

/-! ## The fault fields (R275) -/

theorem loadProgram_keeps_faults (bytes : List Byte) (s : State) :
    Part.faults.same s (loadProgram bytes s).1 := by
  rcases Nat.lt_or_ge 3584 bytes.length with hlong | hfits
  · rw [loadProgram_of_gt hlong]
    exact ⟨rfl, rfl, rfl, rfl⟩
  · rw [loadProgram_of_le hfits]
    exact unchangedBut_setMem s _ .faults (by decide)

theorem setKey_keeps_faults (k : Nat) (pressed : Bool) (s : State) :
    Part.faults.same s (setKey k pressed s).1 := by
  rcases Nat.lt_or_ge 15 k with hgt | hle
  · rw [setKey_of_gt hgt]
    exact ⟨rfl, rfl, rfl, rfl⟩
  · rw [setKey_of_le hle]
    exact unchangedBut_setKeyAt s k pressed .faults (by decide)

/-- A halted machine's cycle is no change (R272). -/
theorem runCycle_of_fault (h : s.fault ≠ none) : runCycle s = .next (s, .halted) :=
  if_pos (Option.isSome_iff_ne_none.2 h)

/-- The step of a halted machine, as the host calls it. -/
theorem hostAct_step_of_fault (h : s.fault ≠ none) : hostAct .step s = .next (s, .stepped .halted) := by
  simp only [hostAct, runCycle_of_fault h]

end Sys2Proof.Machine

namespace Sys2Proof.Proofs

open Sys2Proof.Machine

/-- Settles O60, operation by operation: a step finds the machine halted, and the rest write no fault field in any
state. -/
theorem onlyResetClearsAFault : Obligations.OnlyResetClearsAFault := by
  intro o s t r hfault hreset hact
  cases o with
  | step =>
    cases (hostAct_step_of_fault hfault).symm.trans hact
    exact ⟨rfl, rfl, rfl, rfl⟩
  | loadProgram bytes =>
    have hkeep := loadProgram_keeps_faults bytes s
    rwa [Host.Outcome.next.inj hact] at hkeep
  | setKey k pressed =>
    have hkeep := setKey_keeps_faults k pressed s
    rwa [Host.Outcome.next.inj hact] at hkeep
  | ackRedraw =>
    cases hact
    exact unchangedBut_setRedraw s false .faults (by decide)
  | readFramebuffer | readSoundTimer | debugRead =>
    cases hact
    exact ⟨rfl, rfl, rfl, rfl⟩
  | reset => exact absurd rfl hreset

/-- Settles O57, by whether the latch has the slot. -/
theorem setKeyWritesOneSlot : Obligations.SetKeyWritesOneSlot := by
  intro k pressed s
  refine ⟨fun hle => ?_, fun hgt => congrArg Host.Outcome.next (setKey_of_gt hgt)⟩
  exact ⟨_, congrArg Host.Outcome.next (setKey_of_le hle), keyAt_setKeyAt hle pressed,
    unchangedBut_setKeyAt s k pressed⟩

/-- Settles O58: the reads hand out the state they were given, and the acknowledgement writes REDRAW. -/
theorem hostReadsAndAcknowledges : Obligations.HostReadsAndAcknowledges := by
  intro s
  refine ⟨?framebuffer, rfl, rfl, ?acknowledge⟩
  case framebuffer =>
    exact ⟨_, rfl, by rw [List.length_map, List.length_range], fun _ _ => getElem?_map_fbCell_range s.fb⟩
  case acknowledge => exact ⟨_, rfl, rfl, unchangedBut_setRedraw s false⟩

end Sys2Proof.Proofs

/-! PROOFS. 10_state.md section 10: the reset table (R51), which the invariant meets, and the actions of the host
(60_exceptions.md R290), each of which keeps the invariant. -/

namespace Sys2Proof.Machine

variable {s t : State}

/-! ## The reset state (R51) -/

theorem getV_reset (r : Nibble) : getV State.reset r = 0 := Vector.getElem_replicate r.isLt

theorem slot_reset (k : Nat) : slot State.reset k = 0 := by
  unfold slot State.reset
  by_cases hk : k < 16 <;> simp [hk]

theorem keyAt_reset (k : Nat) : keyAt State.reset k = false := by
  unfold keyAt State.reset
  by_cases hk : k < 16 <;> simp [hk]

/-- Memory lists nothing at reset, so that it reads as the 80 bytes of the font table and 0 elsewhere. -/
theorem byteAt_reset (a : Nat) :
    byteAt State.reset a = if 0x050 ≤ a ∧ a < 0x0A0 then fontBytes.getD (a - 0x050) 0 else 0 := rfl

/-- The counter of draws is a piece of its own: replacing it is all that RND's draw and the host's reset do to it. -/
theorem unchangedBut_withDraws (s : State) (n : Nat) : unchangedBut [.draws] s { s with draws := n } := by
  intro p hp
  cases p with
  | draws => simp at hp
  | faults => exact ⟨rfl, rfl, rfl, rfl⟩
  | stack => exact ⟨rfl, fun _ => rfl⟩
  | framebuffer => exact fun _ _ => rfl
  | regs | keys | mem => exact fun _ => rfl
  | index | pc | delay | sound | redraw => rfl

/-! ## The invariant, action by action -/

theorem inv_reset : Inv State.reset where
  memory := reset_mem_wf
  slots k := by simp [slot_reset]
  pcBound := by decide
  record := ⟨rfl, rfl, rfl⟩

theorem inv_setMem {m : Memory} (h : Inv s) (hwf : m.wf = true) : Inv (setMem s m) :=
  ⟨hwf, h.slots, h.pcBound, h.record⟩

/-- The loader stays inside memory, 0x200 and 3584 bytes being 0x1000, or does nothing (R82). -/
theorem inv_loadProgram (bytes : List Byte) (h : Inv s) : Inv (loadProgram bytes s).1 := by
  rcases Nat.lt_or_ge 3584 bytes.length with hlong | hfits
  · rw [loadProgram_of_gt hlong]
    exact h
  · rw [loadProgram_of_le hfits]
    exact inv_setMem h (Memory.wf_storeAll bytes s.mem 0x200 h.memory (Nat.add_le_add_left hfits 0x200))

theorem inv_setKey (k : Nat) (pressed : Bool) (h : Inv s) : Inv (setKey k pressed s).1 := by
  rcases Nat.lt_or_ge 15 k with hgt | hle
  · rw [setKey_of_gt hgt]
    exact h
  · rw [setKey_of_le hle]
    exact ⟨h.memory, h.slots, h.pcBound, h.record⟩

theorem inv_ackRedraw (h : Inv s) : Inv (ackRedraw s).1 := ⟨h.memory, h.slots, h.pcBound, h.record⟩

/-- The counter of draws, which the host's reset keeps, has no part in the invariant. -/
theorem inv_hostReset (s : State) : Inv (hostReset s).1 :=
  ⟨inv_reset.memory, inv_reset.slots, inv_reset.pcBound, inv_reset.record⟩

/-- The host's step is a cycle whose result it hands on (R291). -/
theorem hostAct_step_eq_next {r : HostResult} (h : hostAct .step s = .next (t, r)) :
    ∃ q, runCycle s = .next (t, q) := by
  unfold hostAct at h
  dsimp only at h
  split at h <;> cases h
  exact ⟨_, by assumption⟩

end Sys2Proof.Machine

namespace Sys2Proof.Proofs

open Sys2Proof.Machine

/-- Settles O55, operation by operation; a step is one cycle (`inv_runCycle`). -/
theorem hostActionsKeepTheInvariant : Obligations.HostActionsKeepTheInvariant := by
  intro o s t r hs hact
  cases o with
  | step =>
    obtain ⟨q, hrun⟩ := hostAct_step_eq_next hact
    exact inv_runCycle hs hrun
  | loadProgram bytes =>
    have hinv := inv_loadProgram bytes hs
    rwa [Host.Outcome.next.inj hact] at hinv
  | setKey k pressed =>
    have hinv := inv_setKey k pressed hs
    rwa [Host.Outcome.next.inj hact] at hinv
  | ackRedraw => cases hact; exact inv_ackRedraw hs
  | reset => cases hact; exact inv_hostReset s
  | readFramebuffer | readSoundTimer | debugRead => cases hact; exact hs

/-- Settles O53. -/
theorem invariantHoldsAtReset : Obligations.InvariantHoldsAtReset := inv_reset

/-- Settles O59: the host's reset is the reset state with the counter of draws put back. -/
theorem hostResetRestoresTheResetState : Obligations.HostResetRestoresTheResetState :=
  fun s => ⟨_, rfl, unchangedBut_withDraws State.reset s.draws, rfl⟩

/-- Settles O1, piece by piece of the table. -/
theorem resetHoldsTheTabledValues : Obligations.ResetHoldsTheTabledValues :=
  ⟨getV_reset, rfl, rfl, rfl, slot_reset, rfl, rfl, keyAt_reset, fbCell_clearedFb, rfl, rfl, rfl, rfl, rfl, rfl,
    byteAt_reset⟩

end Sys2Proof.Proofs

/-! PROOFS. 30_encoding.md: how the two bytes of an opcode make it (R73, R100) and what the fetch answers (R104);
41_alu.md, 42_index_memory.md and 44_timers_input.md: RND, LD B and the moves of timers and keys into registers. -/

namespace Sys2Proof

/-- The high byte weighs 256 (R73, R100). -/
theorem toNat_wordOfBytes (hi lo : Byte) : (wordOfBytes hi lo).toNat = hi.toNat * 256 + lo.toNat := by
  rw [wordOfBytes, BitVec.toNat_append, ← Nat.shiftLeft_add_eq_or_of_lt lo.isLt, Nat.shiftLeft_eq]

/-- Two bytes alone are decoded as the opcode they make. -/
theorem decode_pair_eq_ok {hi lo : Byte} {i : Instr} (h : decode [hi, lo] = .ok (i, [])) :
    decodeWord (wordOfBytes hi lo) = i :=
  congrArg Prod.fst (Except.ok.inj h)

end Sys2Proof

namespace Sys2Proof.Machine

variable (s : State)

/-! ## The fetch -/

/-- FAULT_ADDR of a fetch fault fits in 16 bits (R270). -/
theorem toNat_fetchBounds_addr : (BitVec.ofNat 16 (max s.pc.toNat 0x1000)).toNat = max s.pc.toNat 0x1000 := by
  rw [BitVec.toNat_ofNat, Nat.mod_eq_of_lt (Nat.max_lt.2 ⟨s.pc.isLt, by decide⟩)]

/-! ## Frames -/

theorem unchangedBut_setDt (b : Byte) : unchangedBut [.delay] s (setDt s b) := by
  intro p hp
  cases p with
  | delay => simp at hp
  | _ => simp [Part.same]

theorem unchangedBut_setSt (b : Byte) : unchangedBut [.sound] s (setSt s b) := by
  intro p hp
  cases p with
  | sound => simp at hp
  | _ => simp [Part.same]

/-! ## The BCD digits (R204) -/

/-- A byte is below 256, so that each of its three decimal digits is a byte. -/
theorem toNat_bcdDigits (a : Byte) :
    ((bcdDigits a).getD 0 0).toNat = a.toNat / 100 ∧ ((bcdDigits a).getD 1 0).toNat = a.toNat / 10 % 10 ∧
      ((bcdDigits a).getD 2 0).toNat = a.toNat % 10 := by
  have := a.isLt
  simp only [bcdDigits, List.getD_cons_zero, List.getD_cons_succ, BitVec.toNat_ofNat]
  omega

/-! ## The key wait (R243) -/

theorem exec_ldVxK_of_key {x : Nibble} {k : Nat} (h : lowestKey s = some k) :
    exec (.ldVxK x) s = .next (advance (setV s x (BitVec.ofNat 8 k))) := by
  simp only [exec, execLdVxK, h]

theorem exec_ldVxK_of_no_key {x : Nibble} (h : lowestKey s = none) : exec (.ldVxK x) s = .next s := by
  simp only [exec, execLdVxK, h]

end Sys2Proof.Machine

namespace Sys2Proof.Proofs

open Sys2Proof.Machine

/-- Settles O7. -/
theorem decoderTakesTwoBytes : Obligations.DecoderTakesTwoBytes :=
  ⟨fun hi lo _ => ⟨wordOfBytes hi lo, toNat_wordOfBytes hi lo, rfl⟩, rfl, fun _ => rfl⟩

/-- Settles O8, by whether both bytes are in memory. -/
theorem fetchIsBigEndianAndBounded : Obligations.FetchIsBigEndianAndBounded := by
  intro s
  refine ⟨fun hle => ⟨fetch_of_le hle, toNat_wordOfBytes _ _⟩, fun hgt => ?_⟩
  exact ⟨_, fetch_of_gt hgt, rfl, toNat_fetchBounds_addr s⟩

/-- Settles O33: the draw moves the counter alone, and the rest is one register write. -/
theorem randomIsADrawMasked : Obligations.RandomIsADrawMasked := by
  intro x nn s
  obtain ⟨hregs, hpc, hframe⟩ := advance_setV_frame (drawByte s).2 x ((drawByte s).1 &&& nn)
  refine ⟨_, rfl, fun k => ?_, rfl, hregs, hpc, ?_⟩
  · rw [getV_advance, getV_setV_self, BitVec.getLsbD_and]
    rfl
  · exact unchangedBut_mono (by decide) (unchangedBut_append (unchangedBut_withDraws s _) hframe)

/-- Settles O35: a store of the three digits from I up, whole or not at all. -/
theorem bcdStoresThreeDigits : Obligations.BcdStoresThreeDigits := by
  intro x s
  have hlen : (bcdDigits (getV s x)).length = 3 := rfl
  refine ⟨fun hin => ?_, fun hout => ?_⟩
  · obtain ⟨t, hexec, hbytes, hframe⟩ :=
      settle_storeBytes_of_le (s := s) (encode (.ldB x)) (bs := bcdDigits (getV s x)) (by omega)
    rw [hlen] at hbytes hframe
    obtain ⟨hhundreds, htens, hones⟩ := toNat_bcdDigits (getV s x)
    refine ⟨t, hexec, ?_, ?_, ?_, hframe⟩
    · rw [← hhundreds, ← hbytes 0 (by decide), Nat.add_zero]
    · rw [← htens, ← hbytes 1 (by decide)]
    · rw [← hones, ← hbytes 2 (by decide)]
  · exact settle_storeBytes_of_gt _ (List.cons_ne_nil _ _) (by omega)

/-- Settles O45: each is one write, of a register or of a timer. -/
theorem timerMoves : Obligations.TimerMoves :=
  fun x s =>
  ⟨⟨_, rfl, getV_setV_self s x s.dt, advance_setV_frame s x s.dt⟩,
    ⟨_, rfl, rfl, pcMoved_advance (setDt s (getV s x)), unchangedBut_advance (unchangedBut_setDt s _)⟩,
    ⟨_, rfl, rfl, pcMoved_advance (setSt s (getV s x)), unchangedBut_advance (unchangedBut_setSt s _)⟩⟩

/-- Settles O46: the search finds the lowest pressed key (`lowestKey_eq_some`) or none (`lowestKey_eq_none`). -/
theorem keyWaitTakesTheLowestKey : Obligations.KeyWaitTakesTheLowestKey := by
  intro x s
  refine ⟨fun k hk hpressed hlower => ?_, fun hnone => exec_ldVxK_of_no_key s (lowestKey_eq_none.2 hnone)⟩
  have hlowest : lowestKey s = some k := lowestKey_eq_some.2 ⟨hk, hpressed, hlower⟩
  refine ⟨_, exec_ldVxK_of_key s hlowest, ?_, advance_setV_frame s x _⟩
  rw [getV_advance, getV_setV_self, BitVec.toNat_ofNat]
  omega

end Sys2Proof.Proofs

/-! PROOFS. 41_alu.md: the flag-writing instructions under the reading Sequential, where an operand
can be VF (U4, R184). -/

namespace Sys2Proof.Machine

variable (flag result : Byte → Byte → Byte) (s : State)

/-! ## What Sequential leaves in Vx, by which operand the flag write replaces -/

/-- Vx is VF: the flag is the first operand. -/
theorem getV_flagThenResult_sequential_first {y : Nibble} (hy : y ≠ vf) :
    getV (flagThenResult .sequential flag result vf y s) vf =
      result (flag (getV s vf) (getV s y)) (getV s y) := by
  simp only [flagThenResult, getV_setV_self, getV_setV_ne _ _ hy]

/-- Vy alone is VF: the flag is the second operand. -/
theorem getV_flagThenResult_sequential_second {x : Nibble} (hx : x ≠ vf) :
    getV (flagThenResult .sequential flag result x vf s) x =
      result (getV s x) (flag (getV s x) (getV s vf)) := by
  simp only [flagThenResult, getV_setV_self, getV_setV_ne _ _ hx]

/-- Both are VF: the flag is both operands. -/
theorem getV_flagThenResult_sequential_both :
    getV (flagThenResult .sequential flag result vf vf s) vf =
      result (flag (getV s vf) (getV s vf)) (flag (getV s vf) (getV s vf)) := by
  simp only [flagThenResult, getV_setV_self]

/-! ## Results on a flag -/

/-- A flag of SHR is bit 0, which a left shift doubles. -/
theorem toNat_lowBitFlag_shiftLeft (a : Byte) : (lowBitFlag a <<< 1).toNat = a.toNat % 2 * 2 := by
  rw [toNat_shiftLeft_one, toNat_lowBitFlag]
  omega

/-- A flag of SHR is bit 0, which a right shift drops. -/
theorem lowBitFlag_ushiftRight (a : Byte) : lowBitFlag a >>> 1 = 0 := by
  refine BitVec.eq_of_toNat_eq ((toNat_ushiftRight_one _).trans ?_)
  rw [toNat_lowBitFlag]
  exact Nat.div_eq_of_lt (Nat.mod_lt _ (by decide))

/-- A flag of SHL is bit 7, which a left shift drops. -/
theorem highBitFlag_shiftLeft (a : Byte) : highBitFlag a <<< 1 = 0 := by
  refine BitVec.eq_of_toNat_eq ((toNat_shiftLeft_one _).trans ?_)
  rw [toNat_highBitFlag]
  split <;> rfl

/-- A carry is at most 1, so that its double does not wrap. -/
theorem toNat_carryFlag_add_self (a b : Byte) :
    (carryFlag a b + carryFlag a b).toNat = 2 * (carryFlag a b).toNat := by
  rw [BitVec.toNat_add, toNat_carryFlag]
  split <;> rfl

end Sys2Proof.Machine

namespace Sys2Proof.Proofs

open Sys2Proof.Machine

/-- Settles O32, by which operands are VF; SHR and SHL have Vx for both. -/
theorem sequentialReadingDiffersOnlyAtVF : Obligations.SequentialReadingDiffersOnlyAtVF := by
  refine ⟨fun x y s hx hy => ?neither, fun mode x s hx => ?shift, fun y s hy => ?first, fun x s hx => ?second,
    fun s => ?both⟩
  case neither =>
    exact ⟨flagThenResult_readings _ _ s hx hy, flagThenResult_readings _ _ s hx hy,
      flagThenResult_readings _ _ s hx hy⟩
  case shift => exact ⟨flagThenResult_readings _ _ s hx hx, flagThenResult_readings _ _ s hx hx⟩
  case first =>
    exact ⟨getV_flagThenResult_sequential_first _ _ s hy, getV_flagThenResult_sequential_first _ _ s hy,
      getV_flagThenResult_sequential_first _ _ s hy⟩
  case second =>
    exact ⟨getV_flagThenResult_sequential_second _ _ s hx, getV_flagThenResult_sequential_second _ _ s hx,
      getV_flagThenResult_sequential_second _ _ s hx⟩
  case both =>
    have hboth := fun flag result => getV_flagThenResult_sequential_both flag result s
    exact ⟨(congrArg BitVec.toNat (hboth _ _)).trans (toNat_lowBitFlag_shiftLeft _),
      (hboth _ _).trans (lowBitFlag_ushiftRight _), (hboth _ _).trans (highBitFlag_shiftLeft _),
      (congrArg BitVec.toNat (hboth _ _)).trans (toNat_carryFlag_add_self _ _),
      (hboth _ _).trans (BitVec.sub_self _), (hboth _ _).trans (BitVec.sub_self _)⟩

end Sys2Proof.Proofs

/-! PROOFS. 10_state.md: which pieces of the state each instruction writes (R32, R33, R36, R46, R49, R72), and
60_exceptions.md: which faults it raises (R270), said once for every instruction from its own statement: it completes
inside its list of pieces, or it is a fault entry of R270's table. -/

namespace Sys2Proof.Machine

variable {i : Instr} {s t : State}

theorem Part.same_refl (p : Part) (s : State) : p.same s s := by
  cases p with
  | faults => exact ⟨rfl, rfl, rfl, rfl⟩
  | stack => exact ⟨rfl, fun _ => rfl⟩
  | framebuffer => exact fun _ _ => rfl
  | regs | keys | mem => exact fun _ => rfl
  | index | pc | delay | sound | redraw | draws => rfl

/-! ## How an instruction can end -/

/-- The pieces of the state an instruction writes when it completes. -/
def writes : Instr → List Part
  | .cls => [.framebuffer, .redraw, .pc]
  | .ret | .call _ => [.pc, .stack]
  | .sys _ | .jp _ | .jpV0 _ | .seImm _ _ | .sneImm _ _ | .seReg _ _ _ | .sneReg _ _ _ | .skp _ | .sknp _ => [.pc]
  | .ldImm _ _ | .addImm _ _ | .ldReg _ _ | .orReg _ _ | .andReg _ _ | .xorReg _ _ | .addReg _ _ | .subReg _ _
  | .shr _ _ | .subnReg _ _ | .shl _ _ | .ldVxDt _ | .ldVxK _ => [.regs, .pc]
  | .ldI _ | .addI _ | .ldF _ => [.index, .pc]
  | .rnd _ _ => [.regs, .pc, .draws]
  | .drw _ _ _ => [.framebuffer, .redraw, .regs, .pc]
  | .ldDtVx _ => [.delay, .pc]
  | .ldStVx _ => [.sound, .pc]
  | .ldB _ | .storeRegs _ => [.mem, .pc]
  | .loadRegs _ => [.regs, .index, .pc]
  | .unknown _ => []

/-- An instruction that completes: its pieces alone are written, of the registers only those R32 and R33 let it
write, and PC is as R36 lists. -/
structure Completed (i : Instr) (s t : State) : Prop where
  regs : ∀ r, ¬mayWriteV i s r → getV t r = getV s r
  pc : pcUpdated i s t
  frame : unchangedBut (writes i) s t

/-- R270's rows 2 to 5: that an instruction raises a fault of a kind in a state, with this FAULT_ADDR. -/
def raises (i : Instr) (s : State) (addr : Nat) : FaultKind → Prop
  | .fetchBounds => False
  | .dataBounds => addr = max s.i.toNat 0x1000 ∧
      ((∃ x y n, i = .drw x y n ∧ 0 < n.toNat ∧ 0x1000 < s.i.toNat + n.toNat) ∨
        (∃ x, i = .ldB x ∧ 0x1000 < s.i.toNat + 3) ∨
        (∃ x, i = .storeRegs x ∧ 0x1000 < s.i.toNat + x.toNat + 1) ∨
        (∃ x, i = .loadRegs x ∧ 0x1000 < s.i.toNat + x.toNat + 1))
  | .stackOverflow => addr = 0 ∧ s.sp.val = 16 ∧ ∃ nnn, i = .call nnn
  | .stackUnderflow => addr = 0 ∧ s.sp.val = 0 ∧ i = .ret
  | .keyIndex => ∃ x, (i = .skp x ∨ i = .sknp x) ∧ 15 < (getV s x).toNat ∧ addr = (getV s x).toNat

/-- An instruction that raises: fault entry alone, of a kind and with an address that R270's table gives it. -/
def Faulted (i : Instr) (s t : State) : Prop := ∃ k addr, raises i s addr k ∧ faultedAs k addr s t

/-! ## Shapes of completion -/

theorem completed_of_keepsRegs (hregs : Part.regs ∉ writes i)
    (h : pcUpdated i s t ∧ unchangedBut (writes i) s t) : Completed i s t := by
  obtain ⟨hpc, hframe⟩ := h
  exact ⟨fun r _ => hframe .regs hregs r, hpc, hframe⟩

theorem completed_of_regsUnchangedBut {written : List Nibble} (hmay : ∀ r ∈ written, mayWriteV i s r)
    (h : regsUnchangedBut written s t ∧ pcUpdated i s t ∧ unchangedBut (writes i) s t) : Completed i s t := by
  obtain ⟨hregs, hpc, hframe⟩ := h
  exact ⟨fun r hr => hregs r (mt (hmay r) hr), hpc, hframe⟩

/-- A skip moves PC by 2 or by 4, whatever its test says, and does no more (R36). -/
theorem skipWhen_moves (c : Bool) (s : State) :
    (pcMoved 2 s (skipWhen c s) ∨ pcMoved 4 s (skipWhen c s)) ∧ unchangedBut [.pc] s (skipWhen c s) := by
  refine ⟨?_, unchangedBut_setPc s _⟩
  cases c with
  | false => exact .inl (BitVec.toNat_add s.pc 2)
  | true => exact .inr (BitVec.toNat_add s.pc 4)

/-! ## The instructions that can raise -/

theorem ret_completed_or_faulted (s : State) :
    ∃ t, exec .ret s = .next t ∧ (Completed .ret s t ∨ Faulted .ret s t) := by
  obtain ⟨hpops, hraises⟩ := Proofs.retResumesAfterTheCall s
  rcases Nat.eq_zero_or_pos s.sp.val with hempty | hpos
  · obtain ⟨t, hexec, hfault⟩ := hraises hempty
    exact ⟨t, hexec, .inr ⟨.stackUnderflow, 0, ⟨rfl, hempty, rfl⟩, hfault⟩⟩
  · obtain ⟨t, hexec, -, -, hend⟩ := hpops hpos
    exact ⟨t, hexec, .inl (completed_of_keepsRegs (by decide) hend)⟩

theorem call_completed_or_faulted (nnn : Addr12) (s : State) :
    ∃ t, exec (.call nnn) s = .next t ∧ (Completed (.call nnn) s t ∨ Faulted (.call nnn) s t) := by
  obtain ⟨hpushes, hraises⟩ := Proofs.callPushesItsOwnAddress nnn s
  rcases Nat.lt_or_eq_of_le (Nat.le_of_lt_succ s.sp.isLt) with hlt | hfull
  · obtain ⟨t, hexec, -, -, hend⟩ := hpushes hlt
    exact ⟨t, hexec, .inl (completed_of_keepsRegs (by simp [writes]) hend)⟩
  · obtain ⟨t, hexec, hfault⟩ := hraises hfull
    exact ⟨t, hexec, .inr ⟨.stackOverflow, 0, ⟨rfl, hfull, nnn, rfl⟩, hfault⟩⟩

theorem drw_completed_or_faulted (x y n : Nibble) (s : State) :
    ∃ t, exec (.drw x y n) s = .next t ∧ (Completed (.drw x y n) s t ∨ Faulted (.drw x y n) s t) := by
  by_cases hin : n.toNat = 0 ∨ s.i.toNat + n.toNat ≤ 0x1000
  · refine ⟨_, exec_drw_of_le x y n s hin, .inl (completed_of_regsUnchangedBut (written := [0xF]) ?_
      ⟨fun r hr => getV_drawn_of_ne _ x y n s (List.ne_of_not_mem_cons hr), pcMoved_drawn _ x y n s,
        unchangedBut_drawn _ x y n s⟩)⟩
    simp [mayWriteV]
  · obtain ⟨hpos, hout⟩ : 0 < n.toNat ∧ 0x1000 < s.i.toNat + n.toNat := by omega
    refine ⟨_, by rw [exec_drw, drawWith_of_gt _ x y n s hpos hout, settle_error], .inr ?_⟩
    exact ⟨.dataBounds, _, ⟨rfl, .inl ⟨x, y, n, rfl, hpos, hout⟩⟩, faultedAs_dataBounds s _⟩

theorem ldB_completed_or_faulted (x : Nibble) (s : State) :
    ∃ t, exec (.ldB x) s = .next t ∧ (Completed (.ldB x) s t ∨ Faulted (.ldB x) s t) := by
  obtain ⟨hstores, hraises⟩ := Proofs.bcdStoresThreeDigits x s
  rcases Nat.lt_or_ge (s.i.toNat + 2) 0x1000 with hin | hout
  · obtain ⟨t, hexec, -, -, -, -, hend⟩ := hstores hin
    exact ⟨t, hexec, .inl (completed_of_keepsRegs (by simp [writes]) hend)⟩
  · obtain ⟨t, hexec, hfault⟩ := hraises hout
    exact ⟨t, hexec, .inr ⟨.dataBounds, _, ⟨rfl, .inr (.inl ⟨x, rfl, by omega⟩)⟩, hfault⟩⟩

theorem storeRegs_completed_or_faulted (x : Nibble) (s : State) :
    ∃ t, exec (.storeRegs x) s = .next t ∧ (Completed (.storeRegs x) s t ∨ Faulted (.storeRegs x) s t) := by
  obtain ⟨hstores, hraises⟩ := Proofs.storeWritesTheRegisters x s
  rcases Nat.lt_or_ge (s.i.toNat + x.toNat) 0x1000 with hin | hout
  · obtain ⟨t, hexec, -, -, hend⟩ := hstores hin
    exact ⟨t, hexec, .inl (completed_of_keepsRegs (by simp [writes]) hend)⟩
  · obtain ⟨t, hexec, hfault⟩ := hraises hout
    exact ⟨t, hexec, .inr ⟨.dataBounds, _, ⟨rfl, .inr (.inr (.inl ⟨x, rfl, by omega⟩))⟩, hfault⟩⟩

theorem loadRegs_completed_or_faulted (x : Nibble) (s : State) :
    ∃ t, exec (.loadRegs x) s = .next t ∧ (Completed (.loadRegs x) s t ∨ Faulted (.loadRegs x) s t) := by
  obtain ⟨hloads, hraises⟩ := Proofs.loadReadsTheRegisters x s
  rcases Nat.lt_or_ge (s.i.toNat + x.toNat) 0x1000 with hin | hout
  · obtain ⟨t, hexec, hregs, -, hpc, hframe⟩ := hloads hin
    exact ⟨t, hexec, .inl ⟨fun r hr => (hregs r).trans (if_neg hr), hpc, hframe⟩⟩
  · obtain ⟨t, hexec, hfault⟩ := hraises hout
    exact ⟨t, hexec, .inr ⟨.dataBounds, _, ⟨rfl, .inr (.inr (.inr ⟨x, rfl, by omega⟩))⟩, hfault⟩⟩

/-- SKP and SKNP: a read of the latch by Vx, then a skip on what it answers. -/
theorem keySkip_completed_or_faulted {x : Nibble} {test : Bool → Bool} (hi : i = .skp x ∨ i = .sknp x)
    (hexec : exec i s = settle (encode i) s ((keyRead s (getV s x)).map fun k => skipWhen (test k) s)) :
    ∃ t, exec i s = .next t ∧ (Completed i s t ∨ Faulted i s t) := by
  rcases Nat.lt_or_ge 15 (getV s x).toNat with hgt | hle
  · refine ⟨_, hexec.trans (settle_map_of_eq_error (keyRead_of_gt hgt)), .inr ?_⟩
    exact ⟨.keyIndex, _, ⟨x, hi, hgt, rfl⟩, faultedAs_keyIndex s _ _⟩
  · refine ⟨_, hexec.trans (settle_map_of_eq_ok (keyRead_of_le hle)), .inl ?_⟩
    rcases hi with rfl | rfl <;> exact completed_of_keepsRegs (by simp [writes]) (skipWhen_moves _ s)

/-! ## The key wait, which can also leave everything as it is -/

theorem ldVxK_completed (x : Nibble) (s : State) :
    ∃ t, exec (.ldVxK x) s = .next t ∧ Completed (.ldVxK x) s t := by
  cases hkey : lowestKey s with
  | none => exact ⟨s, exec_ldVxK_of_no_key s hkey, fun _ _ => rfl, .inr rfl, fun p _ => Part.same_refl p s⟩
  | some k =>
    obtain ⟨hk, hpressed, -⟩ := lowestKey_eq_some.1 hkey
    obtain ⟨hregs, hpc, hframe⟩ := advance_setV_frame s x (BitVec.ofNat 8 k)
    refine ⟨_, exec_ldVxK_of_key s hkey, completed_of_regsUnchangedBut (fun r hr => ?_)
      ⟨hregs, .inl hpc, hframe⟩⟩
    exact ⟨List.mem_singleton.1 hr, k, hk, hpressed⟩

/-! ## Every instruction -/

/-- What an instruction can do, whichever it is (R16, R36, R270). -/
theorem exec_completed_or_faulted (i : Instr) (s : State) :
    ∃ t, exec i s = .next t ∧ (Completed i s t ∨ Faulted i s t) := by
  cases i with
  | ret => exact ret_completed_or_faulted s
  | call nnn => exact call_completed_or_faulted nnn s
  | drw x y n => exact drw_completed_or_faulted x y n s
  | ldB x => exact ldB_completed_or_faulted x s
  | storeRegs x => exact storeRegs_completed_or_faulted x s
  | loadRegs x => exact loadRegs_completed_or_faulted x s
  | skp x => exact keySkip_completed_or_faulted (test := id) (.inl rfl) rfl
  | sknp x => exact keySkip_completed_or_faulted (test := not) (.inr rfl) rfl
  | ldVxK x =>
    obtain ⟨t, hexec, hend⟩ := ldVxK_completed x s
    exact ⟨t, hexec, .inl hend⟩
  | unknown op => exact ⟨s, rfl, .inl ⟨fun _ _ => rfl, rfl, fun p _ => Part.same_refl p s⟩⟩
  | cls =>
    obtain ⟨t, hexec, -, -, hend⟩ := Proofs.clsClearsEveryCell s
    exact ⟨t, hexec, .inl (completed_of_keepsRegs (by decide) hend)⟩
  | sys nnn =>
    obtain ⟨t, hexec, hend⟩ := Proofs.sysOnlyAdvances nnn s
    exact ⟨t, hexec, .inl (completed_of_keepsRegs (by simp [writes]) hend)⟩
  | jp nnn =>
    obtain ⟨t, hexec, hend⟩ := Proofs.jumpGoesToItsAddress nnn s
    exact ⟨t, hexec, .inl (completed_of_keepsRegs (by simp [writes]) hend)⟩
  | jpV0 nnn =>
    obtain ⟨t, hexec, hend⟩ := Proofs.jumpWithV0AddsV0 nnn s
    exact ⟨t, hexec, .inl (completed_of_keepsRegs (by simp [writes]) hend)⟩
  | seImm | sneImm | seReg | sneReg =>
    exact ⟨_, rfl, .inl (completed_of_keepsRegs (by simp [writes]) (skipWhen_moves _ s))⟩
  | ldI | addI | ldF =>
    exact ⟨_, rfl, .inl (completed_of_keepsRegs (by simp [writes]) (advance_setI_frame s _))⟩
  | ldImm x | addImm x | ldReg x | orReg x | andReg x | xorReg x | ldVxDt x =>
    exact ⟨_, rfl, .inl (completed_of_regsUnchangedBut (by simp [mayWriteV]) (advance_setV_frame s x _))⟩
  | addReg x y | subReg x y | subnReg x y =>
    obtain ⟨-, -, hend⟩ := advance_flagThenResult_spec s x y _ _ rfl
    exact ⟨_, rfl, .inl (completed_of_regsUnchangedBut (by simp [mayWriteV]) hend)⟩
  | shr x | shl x =>
    obtain ⟨-, -, hend⟩ := advance_flagThenResult_spec s x x _ _ rfl
    exact ⟨_, rfl, .inl (completed_of_regsUnchangedBut (by simp [mayWriteV]) hend)⟩
  | rnd x nn =>
    obtain ⟨t, hexec, -, -, hend⟩ := Proofs.randomIsADrawMasked x nn s
    exact ⟨t, hexec, .inl (completed_of_regsUnchangedBut (by simp [mayWriteV]) hend)⟩
  | ldDtVx x =>
    obtain ⟨-, ⟨t, hexec, -, hend⟩, -⟩ := Proofs.timerMoves x s
    exact ⟨t, hexec, .inl (completed_of_keepsRegs (by simp [writes]) hend)⟩
  | ldStVx x =>
    obtain ⟨-, -, t, hexec, -, hend⟩ := Proofs.timerMoves x s
    exact ⟨t, hexec, .inl (completed_of_keepsRegs (by simp [writes]) hend)⟩

/-- `exec_completed_or_faulted`, of the state an instruction is known to end in. -/
theorem completed_or_faulted_of_exec (h : exec i s = .next t) : Completed i s t ∨ Faulted i s t := by
  obtain ⟨u, hexec, hend⟩ := exec_completed_or_faulted i s
  cases hexec.symm.trans h
  exact hend

/-! ## What follows for each piece -/

theorem faults_notMem_writes (i : Instr) : Part.faults ∉ writes i := by
  cases i <;> simp [writes]

theorem keys_notMem_writes (i : Instr) : Part.keys ∉ writes i := by
  cases i <;> simp [writes]

theorem Completed.fault_eq (h : Completed i s t) : t.fault = s.fault :=
  (h.frame .faults (faults_notMem_writes i)).1

/-- A piece that is not in the instruction's list is kept, whether it completes or raises; the fault fields are the
exception, and they are in no list. -/
theorem exec_keeps {p : Part} (hp : p ∉ writes i) (hfaults : p ≠ .faults) (h : exec i s = .next t) :
    p.same s t := by
  rcases completed_or_faulted_of_exec h with hdone | ⟨k, addr, -, -, -, -, hframe⟩
  · exact hdone.frame p hp
  · exact hframe p (by simpa using hfaults)

theorem index_notMem_writes (hldI : ∀ nnn, i ≠ .ldI nnn)
    (hx : ∀ x, i ≠ .addI x ∧ i ≠ .ldF x ∧ i ≠ .loadRegs x) :
    Part.index ∉ writes i := by
  cases i with
  | ldI nnn => exact absurd rfl (hldI nnn)
  | addI x => exact absurd rfl (hx x).1
  | ldF x => exact absurd rfl (hx x).2.1
  | loadRegs x => exact absurd rfl (hx x).2.2
  | _ => simp [writes]

theorem stack_notMem_writes (hcall : ∀ nnn, i ≠ .call nnn) (hret : i ≠ .ret) : Part.stack ∉ writes i := by
  cases i with
  | call nnn => exact absurd rfl (hcall nnn)
  | ret => exact absurd rfl hret
  | _ => simp [writes]

theorem delay_notMem_writes (hx : ∀ x, i ≠ .ldDtVx x) : Part.delay ∉ writes i := by
  cases i with
  | ldDtVx x => exact absurd rfl (hx x)
  | _ => simp [writes]

theorem sound_notMem_writes (hx : ∀ x, i ≠ .ldStVx x) : Part.sound ∉ writes i := by
  cases i with
  | ldStVx x => exact absurd rfl (hx x)
  | _ => simp [writes]

theorem display_notMem_writes (hcls : i ≠ .cls) (hdrw : ∀ x y n, i ≠ .drw x y n) :
    Part.framebuffer ∉ writes i ∧ Part.redraw ∉ writes i := by
  cases i with
  | cls => exact absurd rfl hcls
  | drw x y n => exact absurd rfl (hdrw x y n)
  | _ => simp [writes]

theorem mem_notMem_writes (hx : ∀ x, i ≠ .ldB x ∧ i ≠ .storeRegs x) : Part.mem ∉ writes i := by
  cases i with
  | ldB x => exact absurd rfl (hx x).1
  | storeRegs x => exact absurd rfl (hx x).2
  | _ => simp [writes]

theorem draws_notMem_writes (hrnd : ∀ x nn, i ≠ .rnd x nn) : Part.draws ∉ writes i := by
  cases i with
  | rnd x nn => exact absurd rfl (hrnd x nn)
  | _ => simp [writes]

end Sys2Proof.Machine

namespace Sys2Proof.Proofs

open Sys2Proof.Machine

/-- Settles O51: an instruction completes inside its list of pieces (`writes`) or only takes a fault. -/
theorem writersOfEachPieceOfState : Obligations.WritersOfEachPieceOfState := by
  intro i s t h
  have hkeeps {p : Part} (hp : p ∉ writes i) (hne : p ≠ .faults) : p.same s t := exec_keeps hp hne h
  refine ⟨?regs, ?pc, ?pcByFault, fun hi => exec_keeps_faults hi h,
    fun hldI hx => hkeeps (index_notMem_writes hldI hx) nofun,
    fun hcall hret => hkeeps (stack_notMem_writes hcall hret) nofun,
    fun hx => hkeeps (delay_notMem_writes hx) nofun,
    fun hx => hkeeps (sound_notMem_writes hx) nofun,
    fun hcls hdrw => ⟨hkeeps (display_notMem_writes hcls hdrw).1 nofun,
      hkeeps (display_notMem_writes hcls hdrw).2 nofun⟩,
    fun hx => hkeeps (mem_notMem_writes hx) nofun,
    fun hrnd => hkeeps (draws_notMem_writes hrnd) nofun,
    hkeeps (keys_notMem_writes i) nofun⟩
  all_goals rcases completed_or_faulted_of_exec h with hdone | ⟨k, addr, -, hfault, -, -, hframe⟩
  case regs.inl => exact hdone.regs
  case regs.inr => exact fun r _ => hframe .regs (by decide) r
  case pc.inl => exact .inr hdone.pc
  case pc.inr => exact .inl (hframe .pc (by decide))
  case pcByFault.inl =>
    intro hs
    rw [if_pos (hdone.fault_eq.trans hs)]
    exact hdone.pc
  case pcByFault.inr =>
    intro _
    rw [if_neg (by simp [hfault])]
    exact hframe .pc (by decide)

/-- Settles O48: an instruction that completes keeps FAULT, so one that sets it raised by the table (`raises`). -/
theorem faultsAreRaisedOnlyAsTabled : Obligations.FaultsAreRaisedOnlyAsTabled := by
  intro i s t k hs h hk
  rcases completed_or_faulted_of_exec h with hdone | ⟨k', addr, hraises, hfault, -, haddr, -⟩
  · cases (hdone.fault_eq.trans hs).symm.trans hk
  · obtain rfl : k' = k := Option.some.inj (hfault.symm.trans hk)
    subst haddr
    cases k' with
    | fetchBounds => exact hraises
    | dataBounds => exact hraises
    | stackOverflow | stackUnderflow => exact ⟨BitVec.eq_of_toNat_eq hraises.1, hraises.2⟩
    | keyIndex => exact hraises

end Sys2Proof.Proofs

/-! PROOFS. 30_encoding.md: what a step does and reports (R120, R121), and 60_exceptions.md: what a step that faults
leaves (R270 to R273) and that a faulted machine stays halted (R272). -/

namespace Sys2Proof

/-- An opcode that decodes to UNKNOWN is the one UNKNOWN carries (R121). -/
theorem eq_of_decodeWord_eq_unknown {op w : Word} (h : decodeWord op = .unknown w) : w = op := by
  have hencode := (decodeWord_wf_and_encode op).2
  rwa [h] at hencode

end Sys2Proof

namespace Sys2Proof.Machine

variable {s t : State}

/-! ## The cycle, its result dropped -/

theorem step_of_runCycle {p : State × StepResult} (h : runCycle s = .next p) : step s = .next p.1 := by
  rw [step, h]
  rfl

theorem finishStep_of_fault (pc : Word) (i : Instr) {k : FaultKind} (h : t.fault = some k) :
    finishStep pc i t = (t, .fault k) := by
  rw [finishStep, h]

theorem fst_finishStep (pc : Word) (i : Instr) (t : State) :
    (finishStep pc i t).1 = if t.fault = none then tick t else t := by
  by_cases hfault : t.fault = none
  · rw [finishStep_of_no_fault _ _ hfault, if_pos hfault]
  · obtain ⟨k, hk⟩ := Option.ne_none_iff_exists'.1 hfault
    rw [finishStep_of_fault _ _ hk, if_neg hfault]

/-- A fetch fault is fault entry with opcode 0 (R104, R270). -/
theorem runCycle_of_gt (hfault : s.fault = none) (hpc : 0x0FFE < s.pc.toNat) :
    runCycle s = .next
      (takeFault s 0 ⟨.fetchBounds, BitVec.ofNat 16 (max s.pc.toNat 0x1000)⟩, .fault .fetchBounds) := by
  rcases runCycle_cases s with ⟨hhalt, -⟩ | ⟨-, -, hrun⟩ | ⟨hc, -⟩
  · exact absurd hfault hhalt
  · exact hrun
  · exact absurd hc.2 (Nat.not_le.2 hpc)

/-- A step that fetches executes the instruction at PC, and ticks unless it faulted (R120). -/
theorem step_of_canFetch (hc : canFetch s) (h : exec (decodeWord (opcodeAtPc s)) s = .next t) :
    step s = .next (if t.fault = none then tick t else t) := by
  rw [step_of_runCycle (runCycle_of_canFetch hc h), fst_finishStep]

/-! ## What the step reports (R121) -/

/-- The case each result of a step stands for. -/
def reports (s t : State) : StepResult → Prop
  | .halted => s.fault ≠ none ∧ t = s
  | .fault k => s.fault = none ∧ t.fault = some k
  | .unknown pc op =>
    s.fault = none ∧ t.fault = none ∧ pc = s.pc ∧ op = opcodeAtPc s ∧ decodeWord op = .unknown op
  | .ok => s.fault = none ∧ t.fault = none ∧ decodeWord (opcodeAtPc s) ≠ .unknown (opcodeAtPc s)

/-- A completed instruction reports Unknown exactly when it is UNKNOWN. -/
theorem reports_reportOf (hs : s.fault = none) (ht : t.fault = none) :
    reports s t (reportOf s.pc (decodeWord (opcodeAtPc s))) := by
  cases hdecode : decodeWord (opcodeAtPc s) with
  | unknown op =>
    obtain rfl := eq_of_decodeWord_eq_unknown hdecode
    exact ⟨hs, ht, rfl, rfl, hdecode⟩
  | _ => exact ⟨hs, ht, by rw [hdecode]; nofun⟩

/-- The end of a step that executed reports the instruction's fault, or its completion. -/
theorem reports_finishStep (hs : s.fault = none) :
    reports s (finishStep s.pc (decodeWord (opcodeAtPc s)) t).1
      (finishStep s.pc (decodeWord (opcodeAtPc s)) t).2 := by
  cases ht : t.fault with
  | none =>
    rw [finishStep_of_no_fault _ _ ht]
    exact reports_reportOf hs ht
  | some k =>
    rw [finishStep_of_fault _ _ ht]
    exact ⟨hs, ht⟩

theorem runCycle_reports (s : State) : ∃ t r, runCycle s = .next (t, r) ∧ reports s t r := by
  rcases runCycle_cases s with ⟨hhalt, hrun⟩ | ⟨hs, -, hrun⟩ | ⟨hc, t, -, hrun⟩
  · exact ⟨_, _, hrun, hhalt, rfl⟩
  · exact ⟨_, _, hrun, hs, rfl⟩
  · exact ⟨_, _, hrun, reports_finishStep hc.1⟩

/-! ## A step that faults -/

/-- From a machine that is not halted, a step ends faulted only by a fetch fault or by the fault entry of the
instruction at PC, which is no fetch fault (R270). -/
theorem eq_takeFault_of_step {k : FaultKind} (hs : s.fault = none) (h : step s = .next t) (hk : t.fault = some k) :
    ∃ r, t = takeFault s (if k = .fetchBounds then 0 else opcodeAtPc s) r := by
  rcases Nat.lt_or_ge 0x0FFE s.pc.toNat with hgt | hle
  · cases (step_of_runCycle (runCycle_of_gt hs hgt)).symm.trans h
    cases hk
    exact ⟨_, rfl⟩
  · obtain ⟨u, hexec⟩ := exec_next (decodeWord (opcodeAtPc s)) s
    cases (step_of_canFetch ⟨hs, hle⟩ hexec).symm.trans h
    have hne : u.fault ≠ none := fun hu => by simp [hu] at hk
    rw [if_neg hne] at hk ⊢
    have hkind : k ≠ .fetchBounds := by
      rintro rfl
      exact Proofs.faultsAreRaisedOnlyAsTabled _ s u _ hs hexec hk
    rcases Proofs.instructionKeepsTheFaultFieldsOrOnlyTakesAFault _ s u hexec with ⟨hkept, -⟩ | ⟨r, rfl⟩
    · exact absurd (hkept.trans hs) hne
    · rw [if_neg hkind, (decodeWord_wf_and_encode (opcodeAtPc s)).2]
      exact ⟨r, rfl⟩

/-! ## The key latch (R45, R256) -/

theorem step_keeps_keys (h : step s = .next t) : Part.keys.same s t := by
  obtain ⟨r, hrun⟩ := step_eq_next h
  rcases runCycle_cases s with ⟨-, hrun'⟩ | ⟨-, -, hrun'⟩ | ⟨hc, u, hexec, -⟩
  · cases hrun'.symm.trans hrun
    exact fun _ => rfl
  · cases hrun'.symm.trans hrun
    exact fun _ => rfl
  · have hkeys : Part.keys.same s u := exec_keeps (keys_notMem_writes _) nofun hexec
    cases (step_of_canFetch hc hexec).symm.trans h
    split
    · exact fun k => (keyAt_tick u k).trans (hkeys k)
    · exact hkeys

end Sys2Proof.Machine

namespace Sys2Proof.Proofs

open Sys2Proof.Machine

/-- Settles O11, by what a cycle can be (`runCycle_cases`). -/
theorem stepReportsWhatHappened : Obligations.StepReportsWhatHappened := by
  intro s
  obtain ⟨t, r, hrun, hreports⟩ := runCycle_reports s
  refine ⟨t, r, hrun, step_of_runCycle hrun, ?_⟩
  cases r <;> exact hreports

/-- Settles O12: such a step is one fault entry (`eq_takeFault_of_step`). -/
theorem faultingStepIsPrecise : Obligations.FaultingStepIsPrecise := by
  intro s t k hs h hk
  obtain ⟨r, rfl⟩ := eq_takeFault_of_step hs h hk
  exact ⟨rfl, rfl, unchangedBut_takeFault s _ r⟩

/-- Settles O13: a step that changes nothing does so however often it is taken. -/
theorem faultedMachineStaysHalted : Obligations.FaultedMachineStaysHalted := by
  intro s n hfault
  have hrun := runCycle_of_fault hfault
  have hstep := step_of_runCycle hrun
  exact ⟨hrun, hstep, run_of_step_self Sys2Proof.core s hstep n⟩

/-- Settles O52. -/
theorem stepsNeverWriteTheKeyLatch : Obligations.StepsNeverWriteTheKeyLatch :=
  fun _ _ h => step_keeps_keys h

/-- Settles O9. -/
theorem stepRunsTheDecodedInstruction : Obligations.StepRunsTheDecodedInstruction := by
  intro s t i hc hdecode hexec
  have hi : decodeWord (opcodeAtPc s) = i := decode_pair_eq_ok hdecode
  exact step_of_canFetch hc (hi ▸ hexec)

/-- Settles O10. -/
theorem fetchPastMemoryFaults : Obligations.FetchPastMemoryFaults := by
  intro s hfault hpc
  refine ⟨_, step_of_runCycle (runCycle_of_gt hfault hpc), ?_, rfl⟩
  exact ⟨rfl, rfl, toNat_fetchBounds_addr s, unchangedBut_takeFault s _ _⟩

end Sys2Proof.Proofs

/-! PROOFS. 10_state.md: no instruction reads ST, REDRAW or the fault fields (R44, R47, R49), by running each over
other values of them. -/

namespace Sys2Proof.Machine

variable {op : Word} {s t q : State}

/-! ## The state with other values of ST, REDRAW and the fault fields -/

/-- The state `s` with the ST, REDRAW and fault fields of `q`. -/
def overlay (q s : State) : State :=
  { s with st := q.st, redraw := q.redraw, fault := q.fault, faultPc := q.faultPc, faultOp := q.faultOp,
           faultAddr := q.faultAddr }

theorem unchangedBut_overlay (q s : State) : unchangedBut [.sound, .redraw, .faults] s (overlay q s) := by
  intro p hp
  cases p with
  | sound | redraw | faults => simp at hp
  | stack => exact ⟨rfl, fun _ => rfl⟩
  | framebuffer => exact fun _ _ => rfl
  | regs | keys | mem => exact fun _ => rfl
  | index | pc | delay | draws => rfl

/-- From `s` to `t` and from `r` to `u` the same was done: they agree on all but ST, REDRAW and the fault fields,
and each of these is kept on both sides or ends equal. -/
structure SameEffect (s t r u : State) : Prop where
  rest : unchangedBut [.sound, .redraw, .faults] t u
  sound : Part.sound.same s t ∧ Part.sound.same r u ∨ Part.sound.same t u
  redraw : Part.redraw.same s t ∧ Part.redraw.same r u ∨ Part.redraw.same t u
  faults : Part.faults.same s t ∧ Part.faults.same r u ∨ Part.faults.same t u

/-- All three are kept on both sides. -/
theorem sameEffect_of_kept (hsound : Part.sound.same s t) (hredraw : Part.redraw.same s t)
    (hfaults : Part.faults.same s t) : SameEffect s t (overlay q s) (overlay q t) :=
  ⟨unchangedBut_overlay q t, .inl ⟨hsound, rfl⟩, .inl ⟨hredraw, rfl⟩,
    .inl ⟨hfaults, rfl, rfl, rfl, rfl⟩⟩

/-- REDRAW ends equal (CLS and DRW). -/
theorem sameEffect_of_redraw {b : Bool} (hsound : Part.sound.same s t) (hfaults : Part.faults.same s t) :
    SameEffect s (setRedraw t b) (overlay q s) (setRedraw (overlay q t) b) :=
  ⟨unchangedBut_overlay (setRedraw q b) (setRedraw t b), .inl ⟨hsound, rfl⟩, .inr rfl,
    .inl ⟨hfaults, rfl, rfl, rfl, rfl⟩⟩

/-- ST ends equal (Fx18). -/
theorem sameEffect_of_sound {b : Byte} (hredraw : Part.redraw.same s t) (hfaults : Part.faults.same s t) :
    SameEffect s (setSt t b) (overlay q s) (setSt (overlay q t) b) :=
  ⟨unchangedBut_overlay (setSt q b) (setSt t b), .inr rfl, .inl ⟨hredraw, rfl⟩,
    .inl ⟨hfaults, rfl, rfl, rfl, rfl⟩⟩

/-- The fault fields end equal: FAULT_PC is PC, which is the same on both sides. -/
theorem sameEffect_takeFault (q s : State) (op : Word) (r : Raise) :
    SameEffect s (takeFault s op r) (overlay q s) (takeFault (overlay q s) op r) :=
  ⟨unchangedBut_overlay (takeFault (overlay q s) op r) (takeFault s op r), .inl ⟨rfl, rfl⟩, .inl ⟨rfl, rfl⟩,
    .inr ⟨rfl, rfl, rfl, rfl⟩⟩

/-! ## The shared operations -/

theorem loadBytes_overlay (q s : State) (n : Nat) : ∀ a, loadBytes (overlay q s) a n = loadBytes s a n := by
  induction n with
  | zero => intro a; rfl
  | succ n ih =>
    intro a
    simp only [loadBytes, ih]
    rfl

theorem memWrite_overlay (q s : State) (a : Nat) (b : Byte) :
    memWrite (overlay q s) a b = (memWrite s a b).map (overlay q) := by
  unfold memWrite
  split <;> rfl

theorem storeBytes_overlay (q : State) (bs : List Byte) : ∀ (s : State) (a : Nat),
    storeBytes (overlay q s) a bs = (storeBytes s a bs).map (overlay q) := by
  induction bs with
  | nil => intro s a; rfl
  | cons b bs ih =>
    intro s a
    rw [storeBytes, storeBytes, memWrite_overlay]
    cases memWrite s a b with
    | ok u => exact ih u (a + 1)
    | error r => rfl

theorem setRegs_overlay (q : State) (bs : List Byte) : ∀ (s : State) (k : Nat),
    setRegs (overlay q s) k bs = overlay q (setRegs s k bs) := by
  induction bs with
  | nil => intro s k; rfl
  | cons b bs ih => intro s k; exact ih (setV s _ b) (k + 1)

/-- A push that completes writes the call stack alone. -/
theorem push_eq_ok {w : Word} (h : push s w = .ok t) : ∃ sp stack, t = withStack sp stack s := by
  rcases push_cases s w with ⟨-, u, hok, -, -, hu⟩ | ⟨-, herr⟩
  · obtain rfl : u = t := by simpa [hok] using h
    exact ⟨u.sp, u.stack, hu⟩
  · simp [herr] at h

/-- A pop that completes writes SP alone. -/
theorem pop_eq_ok {p : Word × State} (h : pop s = .ok p) : ∃ sp, p.2 = withStack sp s.stack s := by
  rcases pop_cases s with ⟨-, u, hok, -, hu⟩ | ⟨-, herr⟩
  · obtain rfl : (slot s (s.sp.val - 1), u) = p := by simpa [hok] using h
    exact ⟨u.sp, hu⟩
  · simp [herr] at h

theorem push_overlay (q s : State) (w : Word) : push (overlay q s) w = (push s w).map (overlay q) := by
  by_cases h : s.sp.val < 16
  · rw [push, push, dif_pos h]
    exact dif_pos h
  · rw [push, push, dif_neg h]
    exact dif_neg h

theorem pop_overlay (q s : State) : pop (overlay q s) = (pop s).map fun p => (p.1, overlay q p.2) := by
  by_cases h : s.sp.val = 0
  · rw [pop, pop, if_pos h]
    exact if_pos h
  · rw [pop, pop, if_neg h]
    exact if_neg h

/-! ## The shape of an instruction that can raise -/

/-- Its operation answers the same on both sides, and its writes have the same effect. -/
theorem settle_map_sameEffect {α : Type} {e : Except Raise α} {f g : α → State}
    (h : settle op s (e.map f) = .next t) (hfg : ∀ a, e = .ok a → SameEffect s (f a) (overlay q s) (g a)) :
    ∃ u, settle op (overlay q s) (e.map g) = .next u ∧ SameEffect s t (overlay q s) u := by
  cases e with
  | ok a => cases h; exact ⟨_, rfl, hfg a rfl⟩
  | error r => cases h; exact ⟨_, rfl, sameEffect_takeFault q s op r⟩

/-- Its operation answers a state, over which the other values stand as they did. -/
theorem settle_map_sameEffect_of_map {α : Type} {e e' : Except Raise α} {m : α → α} {f : α → State}
    (he : e' = e.map m) (h : settle op s (e.map f) = .next t)
    (hf : ∀ a, e = .ok a → SameEffect s (f a) (overlay q s) (f (m a))) :
    ∃ u, settle op (overlay q s) (e'.map f) = .next u ∧ SameEffect s t (overlay q s) u := by
  have hcomp : (e.map m).map f = e.map (f ∘ m) := (comp_map m f e).symm
  rw [he, hcomp]
  exact settle_map_sameEffect h hf

/-- LD B and LD [I]. -/
theorem settle_storeBytes_sameEffect {a : Nat} {bs : List Byte}
    (h : settle op s ((storeBytes s a bs).map advance) = .next t) :
    ∃ u, settle op (overlay q s) ((storeBytes (overlay q s) a bs).map advance) = .next u ∧
      SameEffect s t (overlay q s) u := by
  refine settle_map_sameEffect_of_map (storeBytes_overlay q bs s a) h fun u hu => ?_
  obtain ⟨m, rfl, -⟩ := storeBytes_eq_ok hu
  exact sameEffect_of_kept (t := advance (setMem s m)) rfl rfl ⟨rfl, rfl, rfl, rfl⟩

/-! ## Every instruction -/

theorem exec_sameEffect {i : Instr} (h : exec i s = .next t) :
    ∃ u, exec i (overlay q s) = .next u ∧ SameEffect s t (overlay q s) u := by
  cases i with
  | ret =>
    refine settle_map_sameEffect_of_map (pop_overlay q s) h fun p hp => ?_
    obtain ⟨sp, hp⟩ := pop_eq_ok hp
    rw [hp]
    exact sameEffect_of_kept (t := setPc (withStack sp s.stack s) _) rfl rfl ⟨rfl, rfl, rfl, rfl⟩
  | call nnn =>
    refine settle_map_sameEffect_of_map (push_overlay q s _) h fun u hu => ?_
    obtain ⟨sp, stack, rfl⟩ := push_eq_ok hu
    exact sameEffect_of_kept (t := setPc (withStack sp stack s) _) rfl rfl ⟨rfl, rfl, rfl, rfl⟩
  | ldB x | storeRegs x => exact settle_storeBytes_sameEffect h
  | drw x y n =>
    change ∃ u, settle _ _ ((loadBytes (overlay q s) s.i.toNat n.toNat).map _) = _ ∧ _
    rw [loadBytes_overlay]
    exact settle_map_sameEffect h fun rows _ =>
      sameEffect_of_redraw (t := advance (blit drwCollision (getV s x) (getV s y) rows s)) rfl
        ⟨rfl, rfl, rfl, rfl⟩
  | loadRegs x =>
    change ∃ u, settle _ _ ((loadBytes (overlay q s) s.i.toNat (x.toNat + 1)).map _) = _ ∧ _
    rw [loadBytes_overlay]
    refine settle_map_sameEffect h fun bs _ => ?_
    rw [setRegs_overlay]
    have hkept := unchangedBut_advance_setI_setRegs s 0 bs (BitVec.ofNat 16 (s.i.toNat + x.toNat + 1))
    exact sameEffect_of_kept (hkept .sound (by decide)) (hkept .redraw (by decide)) (hkept .faults (by decide))
  | skp x | sknp x =>
    exact settle_map_sameEffect h fun k _ => sameEffect_of_kept (t := skipWhen _ s) rfl rfl ⟨rfl, rfl, rfl, rfl⟩
  | ldVxK x =>
    cases hkey : lowestKey s with
    | some k =>
      cases (exec_ldVxK_of_key s hkey).symm.trans h
      exact ⟨_, exec_ldVxK_of_key (overlay q s) hkey, sameEffect_of_kept rfl rfl ⟨rfl, rfl, rfl, rfl⟩⟩
    | none =>
      cases (exec_ldVxK_of_no_key s hkey).symm.trans h
      exact ⟨_, exec_ldVxK_of_no_key (overlay q s) hkey, sameEffect_of_kept rfl rfl ⟨rfl, rfl, rfl, rfl⟩⟩
  | cls =>
    cases h
    exact ⟨_, rfl, sameEffect_of_redraw (t := advance (setFb s clearedFb)) rfl ⟨rfl, rfl, rfl, rfl⟩⟩
  | ldStVx x =>
    cases h
    exact ⟨_, rfl, sameEffect_of_sound (t := advance s) rfl ⟨rfl, rfl, rfl, rfl⟩⟩
  | _ => cases h; exact ⟨_, rfl, sameEffect_of_kept rfl rfl ⟨rfl, rfl, rfl, rfl⟩⟩

end Sys2Proof.Machine

namespace Sys2Proof.Proofs

open Sys2Proof.Machine

/-- Settles O50, by running the instruction over the other values (`overlay`). -/
theorem noInstructionReadsSoundTimerRedrawOrFaultFields :
    Obligations.NoInstructionReadsSoundTimerRedrawOrFaultFields := by
  intro i s t r h hr
  obtain ⟨u, hexec, hrest, hsound, hredraw, hfaults⟩ := exec_sameEffect (q := r) h
  have hover : overlay r s = r := hr.symm
  rw [hover] at hexec hsound hredraw hfaults
  exact ⟨u, hexec, hrest, hsound, hredraw, hfaults⟩

end Sys2Proof.Proofs
